-- ==== Sys2Proof/Word.lean ====
section
/-! DEFINITION. The widths of the core: a byte is 8 bits (R8), a word is `W` = 32 bits (R6, decision D2). -/

namespace Sys2Proof

/-- A byte of the program store or of an instruction (R8). -/
abbrev Byte := BitVec 8

/-- A stack cell, a register or an arithmetic result: `W` = 32 bits (R6, R8). -/
abbrev Word := BitVec 32

end Sys2Proof
end

