-- ==== Sys2Proof/Config.lean ====
section
/-! DEFINITION. The implementation parameters of one core instance (R6), as plain data. They are fixed for the life of the
instance (R7). DESIGN CHOICE (log 1): the model carries them in one field of State, because `step : State → …` takes no
other argument; every statement over all states is then a statement over all parameter values. -/

namespace Sys2Proof

/-- The parameter `OPCODE_MAP` (R6, R74): the byte value of each of the 14 mnemonics. -/
structure OpcodeMap where
  nop   : Byte
  push  : Byte
  pop   : Byte
  load  : Byte
  store : Byte
  jmp   : Byte
  jz    : Byte
  jnz   : Byte
  add   : Byte
  sub   : Byte
  mul   : Byte
  div   : Byte
  print : Byte
  stop  : Byte
  deriving DecidableEq, Repr

/-- The parameters of R6. `W` is not among them: it is 32 (D2), the width of `Word`. -/
structure Config where
  /-- `C_STACK`: stack capacity in cells. -/
  cStack     : Nat
  /-- `C_REGS`: number of registers. -/
  cRegs      : Nat
  /-- `C_PROG`: program store capacity in bytes. -/
  cProg      : Nat
  /-- `PC_W`: width in bits of pc, prog_len and FAULT_PC; no behaviour depends on it beyond holding 0 to `C_PROG`. -/
  pcW        : Nat
  /-- `STEP_BUDGET`: `none` (no bounded-execution mode) or a number of instructions. -/
  stepBudget : Option Nat
  /-- `OPCODE_MAP`. -/
  opcodeMap  : OpcodeMap
  deriving DecidableEq, Repr

end Sys2Proof
end

