-- ==== Sys2Proof/Syntax.lean ====
section
/-! DEFINITION. The closed set of 14 instructions (R2): their mnemonics, formats (R71) and abstract syntax. Operands are the
values R73 gives: a register index and a jump target are unsigned numbers, a PUSH literal is the word itself. -/

namespace Sys2Proof

/-- The 14 mnemonics, in the order of the table of R74. -/
inductive Mnemonic where
  | nop | push | pop | load | store | jmp | jz | jnz | add | sub | mul | div | print | stop
  deriving DecidableEq, Repr

/-- The four formats of R71. -/
inductive Format where
  /-- Opcode byte alone. -/
  | n
  /-- Opcode byte and a 1-byte register index. -/
  | r8
  /-- Opcode byte and a 2-byte jump target. -/
  | t16
  /-- Opcode byte and a 4-byte literal. -/
  | i32
  deriving DecidableEq, Repr

/-- One constructor per row of spec/opcode_table.json. -/
inductive Instr where
  | nop
  | push (n : Word)
  | pop
  | load (r : Nat)
  | store (r : Nat)
  | jmp (i : Nat)
  | jz (i : Nat)
  | jnz (i : Nat)
  | add
  | sub
  | mul
  | div
  | print
  | stop
  deriving DecidableEq, Repr

end Sys2Proof
end

