-- ==== Sys2Proof/WellFormed.lean ====
section
/-! DEFINITION. What makes an instruction and a set of parameters well formed. An instruction is well formed when its
operand is in the range of its field (R73, R80); the parameters are when they meet the conditions of R6 and the opcode map
is injective (R74). -/

namespace Sys2Proof

/-- The operand fits its field: `r` in 0..255, `i` in 0..65535 (R73). A literal is any word. -/
def Instr.wf : Instr → Bool
  | .nop => true
  | .push _ => true
  | .pop => true
  | .load r => decide (r < 256)
  | .store r => decide (r < 256)
  | .jmp i => decide (i < 65536)
  | .jz i => decide (i < 65536)
  | .jnz i => decide (i < 65536)
  | .add => true
  | .sub => true
  | .mul => true
  | .div => true
  | .print => true
  | .stop => true

/-- The 14 byte values, in table order. -/
def OpcodeMap.bytes (m : OpcodeMap) : List Byte :=
  [m.nop, m.push, m.pop, m.load, m.store, m.jmp, m.jz, m.jnz, m.add, m.sub, m.mul, m.div, m.print, m.stop]

/-- "any injective assignment of the 14 mnemonics to byte values" (R74). -/
abbrev OpcodeMap.Wf (m : OpcodeMap) : Prop := m.bytes.Nodup

/-- The conditions of R6 on the parameters. -/
abbrev Config.Wf (c : Config) : Prop :=
  1 ≤ c.cStack ∧ (1 ≤ c.cRegs ∧ c.cRegs ≤ 256) ∧ 1 ≤ c.cProg ∧ c.cProg < 2 ^ c.pcW ∧ c.opcodeMap.Wf

end Sys2Proof
end

