-- ==== Sys2Proof/Decode.lean ====
section
/-! DEFINITION. The instruction encoding (30_encoding.md): formats and widths, the opcode map, the operand decoder, the
decoder (total on any bytes, each rejection named) and the encoder. Everything is read from the opcode byte: the width is
fixed by the opcode alone (R72, R78). -/

namespace Sys2Proof

/-! ## The opcode map (R74, R75) -/

/-- The default map of R74: each opcode is its row's position in the table (the spec's own choice, decision D1). -/
def OpcodeMap.default : OpcodeMap where
  nop := 0x00
  push := 0x01
  pop := 0x02
  load := 0x03
  store := 0x04
  jmp := 0x05
  jz := 0x06
  jnz := 0x07
  add := 0x08
  sub := 0x09
  mul := 0x0A
  div := 0x0B
  print := 0x0C
  stop := 0x0D

/-- The 14 mnemonics in table order. -/
def Mnemonic.all : List Mnemonic :=
  [.nop, .push, .pop, .load, .store, .jmp, .jz, .jnz, .add, .sub, .mul, .div, .print, .stop]

/-- The opcode byte of a mnemonic under a map. -/
def OpcodeMap.byte (m : OpcodeMap) : Mnemonic → Byte
  | .nop => m.nop
  | .push => m.push
  | .pop => m.pop
  | .load => m.load
  | .store => m.store
  | .jmp => m.jmp
  | .jz => m.jz
  | .jnz => m.jnz
  | .add => m.add
  | .sub => m.sub
  | .mul => m.mul
  | .div => m.div
  | .print => m.print
  | .stop => m.stop

/-- `decode(op)` of R75: the mnemonic whose byte is `op`, or none. The whole byte is compared (mask 0xFF). -/
def OpcodeMap.decodeByte (m : OpcodeMap) (op : Byte) : Option Mnemonic :=
  Mnemonic.all.find? (fun k => m.byte k == op)

/-! ## Formats and widths (R71, R72) -/

/-- The format column of R71. -/
def Mnemonic.format : Mnemonic → Format
  | .nop => .n
  | .push => .i32
  | .pop => .n
  | .load => .r8
  | .store => .r8
  | .jmp => .t16
  | .jz => .t16
  | .jnz => .t16
  | .add => .n
  | .sub => .n
  | .mul => .n
  | .div => .n
  | .print => .n
  | .stop => .n

/-- Operand bytes of a format (R71). -/
def Format.width : Format → Nat
  | .n => 0
  | .r8 => 1
  | .t16 => 2
  | .i32 => 4

/-- Operand width in bytes (R72). -/
def Mnemonic.width (k : Mnemonic) : Nat := k.format.width

/-! ## Instructions as a mnemonic and an operand value -/

/-- The mnemonic of an instruction. -/
def Instr.mnemonic : Instr → Mnemonic
  | .nop => .nop
  | .push _ => .push
  | .pop => .pop
  | .load _ => .load
  | .store _ => .store
  | .jmp _ => .jmp
  | .jz _ => .jz
  | .jnz _ => .jnz
  | .add => .add
  | .sub => .sub
  | .mul => .mul
  | .div => .div
  | .print => .print
  | .stop => .stop

/-- The unsigned number in the operand field; 0 for format `N`. -/
def Instr.operand : Instr → Nat
  | .nop => 0
  | .push n => n.toNat
  | .pop => 0
  | .load r => r
  | .store r => r
  | .jmp i => i
  | .jz i => i
  | .jnz i => i
  | .add => 0
  | .sub => 0
  | .mul => 0
  | .div => 0
  | .print => 0
  | .stop => 0

/-- How the operand field becomes the value the instruction uses (R73; conflict C1): a register index and a jump target
are zero-extended, a literal is the word itself. -/
def Mnemonic.withOperand (v : Nat) : Mnemonic → Instr
  | .nop => .nop
  | .push => .push (BitVec.ofNat 32 v)
  | .pop => .pop
  | .load => .load v
  | .store => .store v
  | .jmp => .jmp v
  | .jz => .jz v
  | .jnz => .jnz v
  | .add => .add
  | .sub => .sub
  | .mul => .mul
  | .div => .div
  | .print => .print
  | .stop => .stop

/-- Length in bytes: the opcode byte and the operand (R70). -/
def Instr.length (i : Instr) : Nat := 1 + i.mnemonic.width

/-- The longest instruction, PUSH, has 5 bytes (R71). -/
def maxInstrLength : Nat := 5

/-! ## Byte order (R54, R55): the byte at the lowest address is the least significant -/

/-- The number a sequence of bytes in address order stands for. -/
def littleEndian : List Byte → Nat
  | [] => 0
  | b :: bs => b.toNat + 256 * littleEndian bs

/-- The low `w` bytes of a number, in address order. -/
def leBytes : Nat → Nat → List Byte
  | 0, _ => []
  | w + 1, v => BitVec.ofNat 8 v :: leBytes w (v / 256)

/-! ## The decoder -/

/-- Why no instruction is read. All three are the fault kind InvalidOpcode (R201). -/
inductive DecodeError where
  /-- No byte at all (R91). -/
  | noByte
  /-- The opcode byte is not in the map (R76, R92). -/
  | unknownOpcode (op : Byte)
  /-- The operand runs past the bytes given (R93). -/
  | truncatedOperand (op : Byte)
  deriving DecidableEq, Repr

/-- The operand decoder (R98): the next `w` bytes as a little-endian number, and the bytes after them. It never looks at
what the instruction is. -/
def takeOperand (w : Nat) (bs : List Byte) : Option (Nat × List Byte) :=
  if w ≤ bs.length then some (littleEndian (bs.take w), bs.drop w) else none

/-- Read one instruction from the front of a byte sequence: decode the opcode byte (R75), read the operand of its width
(R72), widen it (R73). Answers the instruction and the bytes after it. -/
def decode (m : OpcodeMap) : List Byte → Except DecodeError (Instr × List Byte)
  | [] => .error .noByte
  | op :: bs =>
    match m.decodeByte op with
    | none => .error (.unknownOpcode op)
    | some k =>
      match takeOperand k.width bs with
      | none => .error (.truncatedOperand op)
      | some (v, rest) => .ok (k.withOperand v, rest)

/-! ## The encoder -/

/-- The bytes of an instruction, in address order (R70, R71). -/
def encode (m : OpcodeMap) (i : Instr) : List Byte :=
  m.byte i.mnemonic :: leBytes i.mnemonic.width i.operand

/-- The instruction value `I` of R70, whose bit positions opcode_table.json uses. -/
def instrValue (m : OpcodeMap) (i : Instr) : Nat := littleEndian (encode m i)

/-- A program's bytes: its instructions one after another, with no header and no padding (R56, R78). -/
def encodeProgram (m : OpcodeMap) (is : List Instr) : List Byte := is.flatMap (encode m)

/-- Decoding in sequence from the first byte (R78: boundaries are "recoverable only by decoding opcodes in sequence from
offset 0"). The fuel bounds the number of instructions. -/
def decodeProgram (m : OpcodeMap) : Nat → List Byte → Except DecodeError (List Instr)
  | _, [] => .ok []
  | 0, _ :: _ => .error .noByte
  | fuel + 1, b :: bs =>
    match decode m (b :: bs) with
    | .error e => .error e
    | .ok (i, rest) =>
      match decodeProgram m fuel rest with
      | .error e => .error e
      | .ok is => .ok (i :: is)

/-! ## The table's numbering -/

/-- The five bytes, in address order, of the instruction whose bits are `w` as opcode_table.json numbers them (bit 0 is the
least significant bit of the first byte); bits at and above `nbits` are 0. -/
def tableBytes (nbits w : Nat) : List Byte := leBytes maxInstrLength (w % 2 ^ nbits)

/-- The instruction the decoder reads from those bytes, under the default map the table is written in. -/
def decodeTableWord (nbits w : Nat) : Option Instr :=
  match decode OpcodeMap.default (tableBytes nbits w) with
  | .ok (i, _) => some i
  | .error _ => none

end Sys2Proof
end

