-- ==== Sys2Proof/Machine/Params.lean ====
section
/-! DEFINITION. The parameter values `State.reset` carries. The spec leaves the capacities OPEN (R6, D19); DESIGN CHOICE
(log 2): the values of the spec's own test configuration TC (95_test_vectors.md section 0). Nothing is stated only for
them: every statement over all states is over all parameter values. -/

namespace Sys2Proof

/-- The configuration TC of 95_test_vectors.md section 0, with the smallest `PC_W` R6 allows for `C_PROG` = 64. -/
def Config.testConfiguration : Config where
  cStack := 4
  cRegs := 4
  cProg := 64
  pcW := 7
  stepBudget := none
  opcodeMap := OpcodeMap.default

end Sys2Proof
end

