-- ==== Sys2Proof/Machine/State.lean ====
section
/-! DEFINITION. The machine state as plain data: the tuple of R20, with the instance's parameters beside it (log 1); the
named stops; the state after reset (R36). -/

namespace Sys2Proof.Machine

/-- The run state (R28). Values 5 to 7 are never produced, so they are no constructors. -/
inductive Status where
  /-- After reset, waiting for a load. -/
  | idle
  /-- Program store filled, waiting for start. -/
  | loaded
  /-- The dispatcher steps. -/
  | running
  /-- Halted by STOP. -/
  | stopped
  /-- Halted by a fault. -/
  | faulted
  deriving DecidableEq, Repr

/-- The fault kinds with codes 1 to 8 (R201). Code 0, no fault, is the absence of a kind. -/
inductive FaultKind where
  | loadError
  | stackOverflow
  | stackUnderflow
  | invalidRegister
  | invalidJumpTarget
  | invalidOpcode
  | divideByZero
  | stepBudgetExceeded
  deriving DecidableEq, Repr

/-- The fault record (R29). -/
structure FaultRecord where
  /-- KIND: `none` is code 0. -/
  kind        : Option FaultKind
  /-- OPCODE_VALID. -/
  opcodeValid : Bool
  /-- OPCODE: 0 when OPCODE_VALID is 0. -/
  opcode      : Byte
  /-- FAULT_PC. -/
  faultPc     : Nat
  deriving DecidableEq, Repr

/-- The cleared record: every field 0 (R36). -/
def FaultRecord.clear : FaultRecord where
  kind := none
  opcodeValid := false
  opcode := 0
  faultPc := 0

/-- The program store as (address, byte) pairs: addresses strictly rising, no entry 0x00. An unlisted address reads 0x00,
the reset content (R36, R53). -/
abbrev Memory := List Host.Cell

/-- The state of one core instance (R20). -/
structure State where
  /-- The parameters (R6). Not state: nothing changes them (R7). -/
  cfg     : Config
  /-- The run state (R28). -/
  status  : Status
  /-- The program store (R50). -/
  prog    : Memory
  /-- `prog_len`, the number of bytes loaded (R27). -/
  progLen : Nat
  /-- The program counter, a byte address (R25). -/
  pc      : Nat
  /-- The stack cells, index 0 first, `C_STACK` of them (R21). -/
  st      : List Word
  /-- The stack pointer: the number of live elements (R22). -/
  sp      : Nat
  /-- The register bank, `C_REGS` words (R23). -/
  x       : List Word
  /-- Completed instructions since the last RESET (R30). -/
  steps   : Nat
  /-- The fault record (R29). -/
  fault   : FaultRecord
  /-- The words PRINT emitted, oldest first (R31). -/
  out     : List Word
  deriving DecidableEq, Repr

/-- Why a step stops instead of giving a next state. These are NOT the faults of R201: those are taken (R205), as a next
state with `status` FAULTED. -/
inductive Fault where
  /-- Raised by `step` when `status` is not RUNNING: "No step is enabled" (R96). Safe: the machine is stuck until the host
  acts (log 3). -/
  | noStepEnabled (status : Status)
  /-- Raised by a read of the program store at an address at or above `C_PROG`, which does not exist (R50). Only a state
  that breaks R37 (`prog_len` above `C_PROG`) reaches it. Safe (log 4). -/
  | noStoreByte (a : Nat)
  /-- Raised by an access to a stack cell the array does not have (R21). Only a state that breaks R21 or R37 reaches it.
  Safe (log 4). -/
  | noStackCell (i : Nat)
  /-- Raised by an access, after CheckReg, to a register the bank does not have (R23). Only a state whose bank is not
  `C_REGS` long reaches it. Safe (log 4). -/
  | noRegister (r : Nat)
  deriving DecidableEq, Repr

/-- Why an instruction has no meaning in the model. -/
inductive Refusal where
  /-- Raised by an arm of `exec` whose instruction has no meaning yet; no arm is one. Safe. -/
  | notModelled (mnemonic : String)
  deriving DecidableEq, Repr

/-- What a step answers. -/
abbrev Result := Host.Outcome State Fault Refusal

/-- The state right after RESET of an instance with parameters `c` (R36, R235). -/
def State.resetWith (c : Config) : State where
  cfg := c
  status := .idle
  prog := []
  progLen := 0
  pc := 0
  st := List.replicate c.cStack 0
  sp := 0
  x := List.replicate c.cRegs 0
  steps := 0
  fault := FaultRecord.clear
  out := []

/-- The state right after reset, for the parameters of log 2. -/
def State.reset : State := State.resetWith Config.testConfiguration

end Sys2Proof.Machine
end

