-- ==== Sys2Proof/Machine/Memory.lean ====
section
/-! DEFINITION. The program store (20_memory.md): reading and writing one byte in the canonical form, the checked byte read,
and `MemRead` (R54). -/

namespace Sys2Proof.Machine

/-- What an address no entry lists reads as: "the buffer is zero-initialized" (R53, R36). -/
def Memory.unlisted : Byte := 0x00

/-- The canonical form: addresses strictly rising and no entry equal to what an unlisted address reads as. -/
abbrev Memory.Wf (m : Memory) : Prop :=
  m.Pairwise (fun c d => c.1 < d.1) ∧ ∀ c ∈ m, c.2 ≠ Memory.unlisted

/-- The byte at an address. -/
def Memory.read : Memory → Nat → Byte
  | [], _ => Memory.unlisted
  | c :: m, a => if c.1 = a then c.2 else Memory.read m a

/-- One entry in front, or none when the byte is what an unlisted address reads as. -/
def Memory.put (a : Nat) (v : Byte) (m : Memory) : Memory :=
  if v = Memory.unlisted then m else (a, v) :: m

/-- Set the byte at an address, keeping the canonical form. -/
def Memory.write : Memory → Nat → Byte → Memory
  | [], a, v => Memory.put a v []
  | c :: m, a, v =>
    if a < c.1 then Memory.put a v (c :: m)
    else if a = c.1 then Memory.put a v m
    else c :: Memory.write m a v

/-- Write bytes one after another from an address upward: the loader's `MemWrite(k, 1, b[k])` (R236). -/
def Memory.writeBytes : Memory → Nat → List Byte → Memory
  | m, _, [] => m
  | m, a, b :: bs => Memory.writeBytes (Memory.write m a b) (a + 1) bs

/-- One byte of the store. An address at or above `C_PROG` does not exist (R50; log 4). -/
def State.readByte (s : State) (a : Nat) : Except Fault Byte :=
  if a < s.cfg.cProg then .ok (Memory.read s.prog a) else .error (.noStoreByte a)

/-- `n` bytes from address `a` upward, in address order. -/
def State.readBytes (s : State) : Nat → Nat → Except Fault (List Byte)
  | _, 0 => .ok []
  | a, n + 1 =>
    match s.readByte a with
    | .error f => .error f
    | .ok b =>
      match State.readBytes s (a + 1) n with
      | .error f => .error f
      | .ok bs => .ok (b :: bs)

/-- `MemRead(a, n)` of R54, as the number the bytes stand for. -/
def State.memRead (s : State) (a n : Nat) : Except Fault Nat :=
  match s.readBytes a n with
  | .error f => .error f
  | .ok bs => .ok (littleEndian bs)

end Sys2Proof.Machine
end

