-- ==== Sys2Proof/Machine/Ops.lean ====
section
/-! DEFINITION. The operations every meaning is built from: field updates, word arithmetic (R9, R10), the stack and register
primitives (R100 to R105), Emit (R12), taking a fault (R205), and the commit of an instruction (R94). -/

namespace Sys2Proof.Machine

/-! ## Field updates -/

/-- `pc <- a` (R12). -/
def State.setPc (s : State) (a : Nat) : State := { s with pc := a }

/-- `sp <- n` (R12). -/
def State.setSp (s : State) (n : Nat) : State := { s with sp := n }

/-- Replace the array of stack cells. -/
def State.setStack (s : State) (cells : List Word) : State := { s with st := cells }

/-- Replace the register bank. -/
def State.setRegs (s : State) (regs : List Word) : State := { s with x := regs }

/-- `status <- v`. -/
def State.setStatus (s : State) (v : Status) : State := { s with status := v }

/-- `steps <- n`. -/
def State.setSteps (s : State) (n : Nat) : State := { s with steps := n }

/-- `Emit(v)`: append word `v` to `out` (R12, R31). -/
def State.emit (s : State) (v : Word) : State := { s with out := s.out ++ [v] }

/-! ## Word arithmetic -/

/-- The signed reading of a word (R9). -/
def sint (v : Word) : Int := v.toInt

/-- The unsigned reading of a word (R9). -/
def uint (v : Word) : Nat := v.toNat

/-- `word(n)`: the word with `uint = n mod 2^32` (R9). -/
def word (n : Int) : Word := BitVec.ofInt 32 n

/-- `trunc_div(a, b)`: the quotient rounded toward zero (R10), sign and magnitude apart as the rule gives them. -/
def truncDiv (a b : Int) : Int :=
  if a < 0 ↔ b < 0 then ((a.natAbs / b.natAbs : Nat) : Int) else -((a.natAbs / b.natAbs : Nat) : Int)

/-! ## Why an instruction's body does not complete -/

/-- A body ends early by raising a fault kind (R12) or at an array element that does not exist (log 4). -/
inductive Stop where
  | raise (k : FaultKind)
  | absent (f : Fault)
  deriving DecidableEq, Repr

/-! ## Stack primitives -/

/-- `CheckPush(k)`: StackOverflow when `sp + k > C_STACK` (R100, conflict C9: all cells are usable). -/
def checkPush (k : Nat) (s : State) : Except Stop Unit :=
  if s.cfg.cStack < s.sp + k then .error (.raise .stackOverflow) else .ok ()

/-- `CheckPop(k)`: StackUnderflow when `sp < k` (R101). -/
def checkPop (k : Nat) (s : State) : Except Stop Unit :=
  if s.sp < k then .error (.raise .stackUnderflow) else .ok ()

/-- `st[i]`. -/
def readCell (i : Nat) (s : State) : Except Stop Word :=
  match s.st[i]? with
  | some v => .ok v
  | none => .error (.absent (.noStackCell i))

/-- `st[i] <- v`. -/
def writeCell (i : Nat) (v : Word) (s : State) : Except Stop State :=
  if i < s.st.length then .ok (s.setStack (s.st.set i v)) else .error (.absent (.noStackCell i))

/-- `Push(v)`: `st[sp] <- v; sp <- sp + 1` (R100). -/
def push (v : Word) (s : State) : Except Stop State := do
  let t ← writeCell s.sp v s
  .ok (t.setSp (s.sp + 1))

/-- `Pop()` without its value: `sp <- sp - 1` (R101). The popped cell keeps its value (R34; log 7). -/
def pop (s : State) : State := s.setSp (s.sp - 1)

/-- `Top()`: `st[sp-1]`, nothing written (R102). -/
def top (s : State) : Except Stop Word := readCell (s.sp - 1) s

/-! ## Register primitives -/

/-- `CheckReg(r)`: InvalidRegister when `r ≥ C_REGS` (R104). -/
def checkReg (r : Nat) (s : State) : Except Stop Unit :=
  if s.cfg.cRegs ≤ r then .error (.raise .invalidRegister) else .ok ()

/-- `x[r]` (R105). -/
def readReg (r : Nat) (s : State) : Except Stop Word :=
  match s.x[r]? with
  | some v => .ok v
  | none => .error (.absent (.noRegister r))

/-- `x[r] <- v` (R105): no other register changes. -/
def writeReg (r : Nat) (v : Word) (s : State) : Except Stop State :=
  if r < s.x.length then .ok (s.setRegs (s.x.set r v)) else .error (.absent (.noRegister r))

/-! ## Taking a fault, and committing an instruction -/

/-- Fault entry, the whole effect of a faulting step (R205): `status` and the fault record, and nothing else. `op` is the
fetched opcode byte, or none (R29, R201). There is no return from a fault: only RESET leaves FAULTED (R206). -/
def State.enterFault (s : State) (k : FaultKind) (op : Option Byte) : State :=
  { s with
    status := .faulted
    fault := { kind := some k, opcodeValid := op.isSome, opcode := op.getD 0, faultPc := s.pc } }

/-- Execute and commit (R94, R95): a body that completes commits its writes and `steps <- steps + 1`; one that raises takes
the fault from the state before the instruction, with the instruction's opcode byte (log 10). -/
def finish (k : Mnemonic) (s : State) : Except Stop State → Result
  | .ok t => .next (t.setSteps (s.steps + 1))
  | .error (.raise kind) => .next (s.enterFault kind (some (s.cfg.opcodeMap.byte k)))
  | .error (.absent f) => .fault f

end Sys2Proof.Machine
end

