-- ==== Sys2Proof/Machine/Operands.lean ====
section
/-! DEFINITION. The operand forms: the fall-through address, the one- and two-element stack operands, the jump target. -/

namespace Sys2Proof.Machine

/-- `next = a + 1 + w` (R26, R93), for the instruction at `pc`. -/
def nextPc (k : Mnemonic) (s : State) : Nat := s.pc + 1 + k.width

/-- One operand from the stack: `CheckPop(1)`, then the TOS. Nothing is written. -/
def topOperand (s : State) : Except Stop Word := do
  checkPop 1 s
  top s

/-- Two operands from the stack: `CheckPop(2)`, then `rhs = st[sp-1]` and `lhs = st[sp-2]` (R103, R165). Answers
`(lhs, rhs)`. Nothing is written. -/
def stackOperands (s : State) : Except Stop (Word × Word) := do
  checkPop 2 s
  let rhs ← top s
  let lhs ← top (pop s)
  .ok (lhs, rhs)

/-- `CheckTarget(i)`: InvalidJumpTarget when `i ≥ C_PROG`, the capacity and not the loaded length (R143). -/
def checkTarget (i : Nat) (s : State) : Except Stop Unit :=
  if s.cfg.cProg ≤ i then .error (.raise .invalidJumpTarget) else .ok ()

end Sys2Proof.Machine
end

