-- ==== Sys2Proof/Machine/Arithmetic.lean ====
section
/-! DEFINITION. ADD, SUB, MUL, DIV (43_arithmetic.md). Operands are read as signed integers, the exact result is reduced
modulo 2^32 by `word` (R164). -/

namespace Sys2Proof.Machine

/-- The common body (R167): two operands from the stack, replaced by one result. `op lhs rhs` may raise. -/
def binaryOperation (k : Mnemonic) (op : Word → Word → Except Stop Word) (s : State) : Result :=
  finish k s do
    let (lhs, rhs) ← stackOperands s
    let v ← op lhs rhs
    let t ← push v (pop (pop s))
    .ok (t.setPc (nextPc k s))

/-- `word(sint(lhs) + sint(rhs))` (R160). -/
def addWords (lhs rhs : Word) : Except Stop Word := .ok (word (sint lhs + sint rhs))

/-- `word(sint(lhs) - sint(rhs))`: earlier-pushed minus later-pushed (R161, R165). -/
def subWords (lhs rhs : Word) : Except Stop Word := .ok (word (sint lhs - sint rhs))

/-- `word(sint(lhs) * sint(rhs))`: the low 32 bits of the exact product (R162). -/
def mulWords (lhs rhs : Word) : Except Stop Word := .ok (word (sint lhs * sint rhs))

/-- DivideByZero when `uint(rhs) = 0`, else `word(trunc_div(sint(lhs), sint(rhs)))` (R163). -/
def divWords (lhs rhs : Word) : Except Stop Word :=
  if uint rhs = 0 then .error (.raise .divideByZero) else .ok (word (truncDiv (sint lhs) (sint rhs)))

/-- ADD (R160). -/
def execAdd (s : State) : Result := binaryOperation .add addWords s

/-- SUB (R161). -/
def execSub (s : State) : Result := binaryOperation .sub subWords s

/-- MUL (R162). -/
def execMul (s : State) : Result := binaryOperation .mul mulWords s

/-- DIV (R163). -/
def execDiv (s : State) : Result := binaryOperation .div divWords s

end Sys2Proof.Machine
end

