-- ==== Sys2Proof/Machine/Flags.lean ====
section
/-! DEFINITION. The core has no flags and no condition codes (R32), so no instruction computes one. What stands in their
place is the condition of a conditional jump, a test of the popped word (R141, R142). -/

namespace Sys2Proof.Machine

/-- JZ is taken when `uint(v) = 0` (R141). -/
def takenWhenZero (v : Word) : Bool := uint v == 0

/-- JNZ is taken when `uint(v) ≠ 0` (R142). -/
def takenWhenNonzero (v : Word) : Bool := !(uint v == 0)

end Sys2Proof.Machine
end

