-- ==== Sys2Proof/Machine/ControlFlow.lean ====
section
/-! DEFINITION. JMP, JZ, JNZ (42_control_flow.md). -/

namespace Sys2Proof.Machine

/-- JMP i (R140). -/
def execJmp (i : Nat) (s : State) : Result :=
  finish .jmp s do
    checkTarget i s
    .ok (s.setPc i)

/-- The common body of JZ and JNZ: the target is checked only when the jump is taken (D10), the value is popped either way
(R144). -/
def conditionalJump (k : Mnemonic) (taken : Word → Bool) (i : Nat) (s : State) : Result :=
  finish k s do
    let v ← topOperand s
    if taken v then
      checkTarget i s
      .ok ((pop s).setPc i)
    else
      .ok ((pop s).setPc (nextPc k s))

/-- JZ i (R141). -/
def execJz (i : Nat) (s : State) : Result := conditionalJump .jz takenWhenZero i s

/-- JNZ i (R142). -/
def execJnz (i : Nat) (s : State) : Result := conditionalJump .jnz takenWhenNonzero i s

end Sys2Proof.Machine
end

