-- ==== Sys2Proof/Machine/DataMovement.lean ====
section
/-! DEFINITION. NOP, PUSH, POP, LOAD, STORE (41_data_movement.md). -/

namespace Sys2Proof.Machine

/-- NOP (R120). -/
def execNop (s : State) : Result :=
  finish .nop s (.ok (s.setPc (nextPc .nop s)))

/-- PUSH n (R121). -/
def execPush (n : Word) (s : State) : Result :=
  finish .push s do
    checkPush 1 s
    let t ← push n s
    .ok (t.setPc (nextPc .push s))

/-- POP (R122). -/
def execPop (s : State) : Result :=
  finish .pop s do
    checkPop 1 s
    .ok ((pop s).setPc (nextPc .pop s))

/-- LOAD r (R123). The register check comes first (R204, D9). -/
def execLoad (r : Nat) (s : State) : Result :=
  finish .load s do
    checkReg r s
    checkPush 1 s
    let v ← readReg r s
    let t ← push v s
    .ok (t.setPc (nextPc .load s))

/-- STORE r (R124). The register check comes first (R204, D9). -/
def execStore (r : Nat) (s : State) : Result :=
  finish .store s do
    checkReg r s
    let v ← topOperand s
    let t ← writeReg r v (pop s)
    .ok (t.setPc (nextPc .store s))

end Sys2Proof.Machine
end

