-- ==== Sys2Proof/Machine/OutputHalt.lean ====
section
/-! DEFINITION. PRINT and STOP (44_output_and_halt.md). -/

namespace Sys2Proof.Machine

/-- PRINT (R180): emit the TOS, then pop it. -/
def execPrint (s : State) : Result :=
  finish .print s do
    let v ← topOperand s
    .ok ((pop (s.emit v)).setPc (nextPc .print s))

/-- STOP (R181). -/
def execStop (s : State) : Result :=
  finish .stop s (.ok ((s.setStatus .stopped).setPc (nextPc .stop s)))

end Sys2Proof.Machine
end

