-- ==== Sys2Proof/Machine/Fetch.lean ====
section
/-! DEFINITION. The front of a step: the step budget (R90), the bytes at the pc, and what decoding them answers (R91 to R93).
Also how one instruction is placed where the next fetch reads it. -/

namespace Sys2Proof.Machine

/-- The step budget is used up: `STEP_BUDGET = B` and `steps ≥ B` (R90). -/
def budgetUsedUp (s : State) : Bool :=
  match s.cfg.stepBudget with
  | none => false
  | some b => decide (b ≤ s.steps)

/-- The loaded bytes from the pc on, as far as the longest instruction reaches. -/
def fetchBytes (s : State) : Except Fault (List Byte) :=
  s.readBytes s.pc (min maxInstrLength (s.progLen - s.pc))

/-- What a fetch answers: an instruction, a fault kind with the opcode byte or none (R201), or the model's own stop. -/
inductive Fetched where
  | instr (i : Instr)
  | raised (k : FaultKind) (op : Option Byte)
  | absent (f : Fault)
  deriving DecidableEq, Repr

/-- All three rejections of the decoder are InvalidOpcode; the opcode byte is recorded when one was read (R91, R92, R93). -/
def rejected : DecodeError → Fetched
  | .noByte => .raised .invalidOpcode none
  | .unknownOpcode op => .raised .invalidOpcode (some op)
  | .truncatedOperand op => .raised .invalidOpcode (some op)

/-- Budget check, fetch, decode and operand read, in the order of R204. -/
def fetch (s : State) : Fetched :=
  if budgetUsedUp s then .raised .stepBudgetExceeded none
  else
    match fetchBytes s with
    | .error f => .absent f
    | .ok bs =>
      match decode s.cfg.opcodeMap bs with
      | .error e => rejected e
      | .ok (i, _) => .instr i

/-- The same front of a step, transcribed line by line from the pseudocode of R95; an obligation says that the two agree. -/
def fetchAsWritten (s : State) : Fetched :=
  let a := s.pc
  if budgetUsedUp s then .raised .stepBudgetExceeded none
  else if a ≥ s.progLen then .raised .invalidOpcode none
  else
    match s.readByte a with
    | .error f => .absent f
    | .ok op =>
      match s.cfg.opcodeMap.decodeByte op with
      | none => .raised .invalidOpcode (some op)
      | some m =>
        let w := m.width
        if a + 1 + w > s.progLen then .raised .invalidOpcode (some op)
        else
          match s.memRead (a + 1) w with
          | .error f => .absent f
          | .ok operand => .instr (m.withOperand operand)

/-- Place the bytes of one instruction at the pc of a RUNNING core: the bytes that fall inside the store are written,
`prog_len` covers them, and `status` is RUNNING (log 6). -/
def placeAtPc (s : State) (bs : List Byte) : State :=
  let fit := bs.take (s.cfg.cProg - s.pc)
  { s with
    status := .running
    prog := Memory.writeBytes s.prog s.pc fit
    progLen := max s.progLen (s.pc + fit.length) }

end Sys2Proof.Machine
end

