-- ==== Sys2Proof/Machine/Step.lean ====
section
/-! DEFINITION. One step of the dispatcher (R90 to R96). -/

namespace Sys2Proof.Machine

/-- One step: enabled only in RUNNING (R90, R96; log 3); the front of the step either raises, or hands an instruction to
`exec` (R95). -/
def step (s : State) : Host.Outcome State Fault Refusal :=
  match s.status with
  | .running =>
    match fetch s with
    | .raised k op => .next (s.enterFault k op)
    | .absent f => .fault f
    | .instr i => exec i s
  | other => .fault (.noStepEnabled other)

/-- `s` with the instruction whose table bits are `w` placed where the next step fetches it (log 6). -/
def State.withFetchWord (s : State) (nbits w : Nat) : State := placeAtPc s (tableBytes nbits w)

end Sys2Proof.Machine
end

