-- ==== Sys2Proof/Machine/Assembler.lean ====
section
/-! DEFINITION. The assembler syntax of R80 and R81: from text to items, from items to instructions. It has no part in a
step; it says which bytes a program written in the spec's notation stands for. Where the grammar leaves a point open, log 13
says what is done here. -/

namespace Sys2Proof.Machine

/-- An operand as written. -/
inductive AsmArg where
  | absent
  | number (n : Int)
  | label (l : List Char)
  deriving DecidableEq, Repr

/-- A mnemonic with its operand. -/
structure AsmInstr where
  mnemonic : Mnemonic
  arg      : AsmArg
  deriving DecidableEq, Repr

/-- `[ label ":" ] [ instruction ]`; the comment is gone. -/
structure AsmItem where
  label : Option (List Char)
  instr : Option AsmInstr
  deriving DecidableEq, Repr

/-! ## From items to instructions -/

/-- Bytes an item emits. -/
def AsmItem.size (it : AsmItem) : Nat :=
  match it.instr with
  | none => 0
  | some a => 1 + a.mnemonic.width

/-- The labels with the addresses they stand for: "the byte address of the next instruction" (R80). -/
def labelTable : Nat → List AsmItem → List (List Char × Nat)
  | _, [] => []
  | a, it :: its =>
    match it.label with
    | none => labelTable (a + it.size) its
    | some l => (l, a) :: labelTable (a + it.size) its

/-- An operand in the range of its mnemonic, or none: "refuses an operand outside its range" (R80). -/
def assembleNumber (k : Mnemonic) (n : Int) : Option Instr :=
  match k.format with
  | .n => none
  | .r8 => if 0 ≤ n ∧ n < 256 then some (k.withOperand n.toNat) else none
  | .t16 => if 0 ≤ n ∧ n < 65536 then some (k.withOperand n.toNat) else none
  | .i32 =>
    if -2147483648 ≤ n ∧ n < 2147483648 then some (k.withOperand (BitVec.ofInt 32 n).toNat) else none

/-- One written instruction: only a jump takes a label (R80). -/
def assembleInstr (labels : List (List Char × Nat)) (a : AsmInstr) : Option Instr :=
  match a.arg with
  | .absent => if a.mnemonic.format = .n then some (a.mnemonic.withOperand 0) else none
  | .number n => assembleNumber a.mnemonic n
  | .label l =>
    if a.mnemonic.format = .t16 then
      match labels.lookup l with
      | none => none
      | some addr => assembleNumber a.mnemonic addr
    else none

/-- The items of a program, with the labels known. -/
def assembleItems (labels : List (List Char × Nat)) : List AsmItem → Option (List Instr)
  | [] => some []
  | it :: its =>
    match it.instr with
    | none => assembleItems labels its
    | some a =>
      match assembleInstr labels a, assembleItems labels its with
      | some i, some is => some (i :: is)
      | _, _ => none

/-- A program's instructions. A label defined twice is refused (log 13). -/
def assemble (items : List AsmItem) : Option (List Instr) :=
  let labels := labelTable 0 items
  if (labels.map Prod.fst).Nodup then assembleItems labels items else none

/-! ## From text to items -/

/-- Split a text at every character that meets `p`. -/
def splitText (p : Char → Bool) : List Char → List (List Char)
  | [] => [[]]
  | c :: cs =>
    if p c then [] :: splitText p cs
    else
      match splitText p cs with
      | [] => [[c]]
      | w :: ws => (c :: w) :: ws

/-- A line up to its `--` comment. -/
def dropComment : List Char → List Char
  | [] => []
  | '-' :: '-' :: _ => []
  | c :: cs => c :: dropComment cs

/-- Blanks between words. -/
def isBlank (c : Char) : Bool := c == ' ' || c == '\t' || c == '\r'

/-- The words of a piece of text. -/
def wordsOf (cs : List Char) : List (List Char) := (splitText isBlank cs).filter (fun w => !w.isEmpty)

/-- The mnemonic's spelling, in upper case (R80). -/
def Mnemonic.spelling : Mnemonic → List Char
  | .nop => ['N', 'O', 'P']
  | .push => ['P', 'U', 'S', 'H']
  | .pop => ['P', 'O', 'P']
  | .load => ['L', 'O', 'A', 'D']
  | .store => ['S', 'T', 'O', 'R', 'E']
  | .jmp => ['J', 'M', 'P']
  | .jz => ['J', 'Z']
  | .jnz => ['J', 'N', 'Z']
  | .add => ['A', 'D', 'D']
  | .sub => ['S', 'U', 'B']
  | .mul => ['M', 'U', 'L']
  | .div => ['D', 'I', 'V']
  | .print => ['P', 'R', 'I', 'N', 'T']
  | .stop => ['S', 'T', 'O', 'P']

/-- The mnemonic a word spells. -/
def mnemonicOf (w : List Char) : Option Mnemonic := Mnemonic.all.find? (fun k => Mnemonic.spelling k == w)

/-- The value of a digit, in bases up to 16. -/
def digitValue (c : Char) : Option Nat :=
  if '0' ≤ c ∧ c ≤ '9' then some (c.toNat - '0'.toNat)
  else if 'a' ≤ c ∧ c ≤ 'f' then some (c.toNat - 'a'.toNat + 10)
  else if 'A' ≤ c ∧ c ≤ 'F' then some (c.toNat - 'A'.toNat + 10)
  else none

/-- Digits of a base, most significant first, added to what stands before them. -/
def digitsValue (base : Nat) : Nat → List Char → Option Nat
  | acc, [] => some acc
  | acc, c :: cs =>
    match digitValue c with
    | none => none
    | some d => if d < base then digitsValue base (base * acc + d) cs else none

/-- A number without its sign: decimal, or hexadecimal with `0x` (R80). -/
def naturalOf : List Char → Option Nat
  | [] => none
  | '0' :: 'x' :: [] => none
  | '0' :: 'x' :: cs => digitsValue 16 0 cs
  | cs => digitsValue 10 0 cs

/-- A number; a leading `-` is allowed (its range is checked by the mnemonic). -/
def numberOf : List Char → Option Int
  | '-' :: cs => (naturalOf cs).map (fun n => -(n : Int))
  | cs => (naturalOf cs).map (fun n => (n : Int))

/-- A label: a letter or `_`, then letters, digits and `_` (log 13). -/
def isLabel : List Char → Bool
  | [] => false
  | c :: cs => (c.isAlpha || c == '_') && cs.all (fun d => d.isAlphanum || d == '_')

/-- An operand word: a number, or a label. -/
def argOf (w : List Char) : Option AsmArg :=
  match numberOf w with
  | some n => some (.number n)
  | none => if isLabel w then some (.label w) else none

/-- The words of an instruction: nothing, a mnemonic, or a mnemonic and an operand. Only PUSH takes a `-` (R80). -/
def instrOf : List (List Char) → Option (Option AsmInstr)
  | [] => some none
  | [w] => (mnemonicOf w).map (fun k => some { mnemonic := k, arg := .absent })
  | [w, v] =>
    match mnemonicOf w, argOf v with
    | some k, some a =>
      if v.head? = some '-' ∧ k.format ≠ .i32 then none else some (some { mnemonic := k, arg := a })
    | _, _ => none
  | _ => none

/-- One item: at most one `label :` in front of the instruction. -/
def itemOf (cs : List Char) : Option AsmItem :=
  match splitText (· == ':') cs with
  | [body] => (instrOf (wordsOf body)).map (fun i => { label := none, instr := i })
  | [l, body] =>
    match wordsOf l with
    | [w] => if isLabel w then (instrOf (wordsOf body)).map (fun i => { label := some w, instr := i }) else none
    | _ => none
  | _ => none

/-- Items are separated by `;` or by line ends (R80); a comment runs to the end of its line (log 13). -/
def parseAsm (text : List Char) : Option (List AsmItem) :=
  ((splitText (· == '\n') text).flatMap (fun line => splitText (· == ';') (dropComment line))).mapM itemOf

/-- From the text of a program to its instructions. -/
def assembleText (text : List Char) : Option (List Instr) :=
  match parseAsm text with
  | none => none
  | some items => assemble items

end Sys2Proof.Machine
end

