-- ==== Sys2Proof/Machine/HostView.lean ====
section
/-! DEFINITION. What the host reads (R35) and how it renders the output (R215). Reading has no effect on the core. -/

namespace Sys2Proof.Machine

/-- The 3-bit code of the run state (R28). -/
def Status.code : Status → Nat
  | .idle => 0
  | .loaded => 1
  | .running => 2
  | .stopped => 3
  | .faulted => 4

/-- The 4-bit code of a fault kind (R201). -/
def FaultKind.code : FaultKind → Nat
  | .loadError => 1
  | .stackOverflow => 2
  | .stackUnderflow => 3
  | .invalidRegister => 4
  | .invalidJumpTarget => 5
  | .invalidOpcode => 6
  | .divideByZero => 7
  | .stepBudgetExceeded => 8

/-- `fault.KIND`: 0 when there is no fault (R29). -/
def FaultRecord.kindCode (f : FaultRecord) : Nat :=
  match f.kind with
  | none => 0
  | some k => k.code

/-- The FAULT word: bits [3:0] KIND, bit [4] OPCODE_VALID, bits [12:5] OPCODE (R35). -/
def FaultRecord.faultWord (f : FaultRecord) : Nat :=
  f.kindCode + 16 * f.opcodeValid.toNat + 32 * f.opcode.toNat

/-- The status read interface by number (R35): the unsigned value read, or none for a number that names nothing. The rule
gives the read no width, so the value is a number (log 9). -/
def statusRead (s : State) : Nat → Option Nat
  | 0 => some s.status.code
  | 1 => some s.fault.faultWord
  | 2 => some s.fault.faultPc
  | 3 => some s.progLen
  | 4 => some s.pc
  | 5 => some s.sp
  | 6 => some (s.steps % 2 ^ 32)
  | _ => none

/-- The host's read of stack cell `st[i]` (R35). -/
def hostReadCell (s : State) (i : Nat) : Option Word := s.st[i]?

/-- The host's read of register `x[i]` (R35). -/
def hostReadReg (s : State) (i : Nat) : Option Word := s.x[i]?

/-- One word as the host renders it: the decimal text of `sint(v)`, then LF 0x0A (R215, D23). -/
def hostLine (v : Word) : List Char :=
  (if sint v < 0 then ['-'] else []) ++ Nat.toDigits 10 (sint v).natAbs ++ [Char.ofNat 0x0A]

/-- The whole output as the host renders it, in order (R215). -/
def hostText (s : State) : List Char := s.out.flatMap hostLine

end Sys2Proof.Machine
end

