-- ==== Sys2Proof/Machine/Transactions.lean ====
section
/-! DEFINITION. The host's transactions RESET, LOAD_PROGRAM and START (R235 to R238). Each is one transition of its own, not
a step (log 5). A transaction in a state that does not accept it has no transition: `none` (R238). -/

namespace Sys2Proof.Machine

/-- What the host gives the loader: the bytes, or a source it could not open or read (R236). -/
inductive Source where
  | bytes (bs : List Byte)
  | unreadable
  deriving DecidableEq, Repr

/-- The host transactions that change state (R238). -/
inductive Transaction where
  | reset
  | loadProgram (src : Source)
  | start
  deriving DecidableEq, Repr

/-- RESET: every piece of state at its reset value; the parameters stay (R235, R7). -/
def hostReset (s : State) : State := State.resetWith s.cfg

/-- The LoadError branch of R236: nothing is loaded. -/
def loadError (s : State) : State :=
  { s with
    status := .faulted
    fault := { kind := some .loadError, opcodeValid := false, opcode := 0, faultPc := 0 } }

/-- The other branch of R236: the bytes are written from address 0, `prog_len` is their number. -/
def loadBytes (s : State) (bs : List Byte) : State :=
  { s with
    prog := Memory.writeBytes s.prog 0 bs
    progLen := bs.length
    status := .loaded }

/-- LOAD_PROGRAM, accepted only in IDLE (R236). A source longer than `C_PROG` is a LoadError (conflict C5). -/
def loadProgram (src : Source) (s : State) : Option State :=
  if s.status = .idle then
    match src with
    | .unreadable => some (loadError s)
    | .bytes bs => if s.cfg.cProg < bs.length then some (loadError s) else some (loadBytes s bs)
  else none

/-- START, accepted only in LOADED: `status <- RUNNING` and nothing else (R237). -/
def start (s : State) : Option State :=
  if s.status = .loaded then some (s.setStatus .running) else none

/-- A host transaction. -/
def transact : Transaction → State → Option State
  | .reset, s => some (hostReset s)
  | .loadProgram src, s => loadProgram src s
  | .start, s => start s

/-- The boot sequence of R239: RESET, LOAD_PROGRAM, START. -/
def boot (c : Config) (bs : List Byte) : Option State :=
  match loadProgram (.bytes bs) (State.resetWith c) with
  | none => none
  | some s => start s

end Sys2Proof.Machine
end

