-- ==== Sys2Proof/Safety.lean ====
section
/-! DEFINITION. The terms claims use: the invariant that holds at every boundary between transitions (R37 and the rules that
fix sizes and reset contents), the states an instance can reach, and when two states differ only in what no program can
observe. -/

namespace Sys2Proof.Machine

/-- The arrays have the sizes of R21 and R23. -/
abbrev State.ArraysSized (s : State) : Prop := s.st.length = s.cfg.cStack ∧ s.x.length = s.cfg.cRegs

/-- The ranges of R37. -/
abbrev State.PointersInRange (s : State) : Prop :=
  s.sp ≤ s.cfg.cStack ∧ s.progLen ≤ s.cfg.cProg ∧ s.pc ≤ s.cfg.cProg

/-- The store is in canonical form and every byte at or above `prog_len` is 0x00 (R53). -/
abbrev State.StoreLoaded (s : State) : Prop := Memory.Wf s.prog ∧ ∀ c ∈ s.prog, c.1 < s.progLen

/-- "`fault.KIND ≠ 0` exactly when `status = FAULTED`" (R37); outside FAULTED the whole record is cleared, in FAULTED its
FAULT_PC is the pc (R29, R205). -/
abbrev State.FaultRecordMatches (s : State) : Prop :=
  (s.status = .faulted →
    s.fault.kind.isSome = true ∧ s.fault.faultPc = s.pc ∧ (s.fault.opcodeValid = false → s.fault.opcode = 0)) ∧
  (s.status ≠ .faulted → s.fault = FaultRecord.clear)

/-- Before START nothing but the loader has written (R235 to R237). -/
abbrev State.FreshBeforeRun (s : State) : Prop :=
  (s.status = .idle → s = State.resetWith s.cfg) ∧
  (s.status = .loaded →
    s = { State.resetWith s.cfg with status := .loaded, prog := s.prog, progLen := s.progLen })

/-- The invariant of the machine. -/
abbrev State.Inv (s : State) : Prop :=
  s.cfg.Wf ∧ s.ArraysSized ∧ s.PointersInRange ∧ s.StoreLoaded ∧ s.FaultRecordMatches ∧ s.FreshBeforeRun

/-- What an instance with parameters `c` can reach from RESET by steps and host transactions. -/
inductive Reachable (c : Config) : State → Prop where
  | reset : Reachable c (State.resetWith c)
  | step {s t : State} (h : Reachable c s) (e : step s = .next t) : Reachable c t
  | transact {s t : State} (a : Transaction) (h : Reachable c s) (e : transact a s = some t) : Reachable c t

/-- The run is over (R230). -/
abbrev State.Halted (s : State) : Prop := s.status = .stopped ∨ s.status = .faulted

/-- `t` differs from `s` at most in stack cells at or above `sp` (R34) and in store bytes at or above `prog_len` (R53). -/
structure SameToPrograms (s t : State) : Prop where
  rest : t = { s with st := t.st, prog := t.prog }
  size : t.st.length = s.st.length
  live : t.st.take s.sp = s.st.take s.sp
  text : ∀ a, a < s.progLen → Memory.read t.prog a = Memory.read s.prog a

/-- `s` with another opcode map, and with `op` as the opcode byte of its fault record where the record has one (R74: the
byte values of the map are the only thing that differs). -/
def State.withMap (s : State) (m : OpcodeMap) (op : Byte) : State :=
  { s with
    cfg := { s.cfg with opcodeMap := m }
    fault := { s.fault with opcode := if s.fault.opcodeValid then op else s.fault.opcode } }

/-- A result with its next state changed by `f`; a stop stays as it is. -/
def mapNext (f : State → State) : Result → Result
  | .next t => .next (f t)
  | .fault r => .fault r
  | .refused r => .refused r

/-- Executing `i` raises kind `k`, and nothing but `status` and the fault record changes. -/
def Raises (i : Instr) (s : State) (k : FaultKind) : Prop :=
  ∃ r : FaultRecord, r.kind = some k ∧ exec i s = .next { s with status := .faulted, fault := r }

/-- Words an instruction pops (R103). -/
def wordsPopped : Instr → Nat
  | .nop => 0
  | .push _ => 0
  | .pop => 1
  | .load _ => 0
  | .store _ => 1
  | .jmp _ => 0
  | .jz _ => 1
  | .jnz _ => 1
  | .add => 2
  | .sub => 2
  | .mul => 2
  | .div => 2
  | .print => 1
  | .stop => 0

/-- Words an instruction pushes (R103). -/
def wordsPushed : Instr → Nat
  | .nop => 0
  | .push _ => 1
  | .pop => 0
  | .load _ => 1
  | .store _ => 0
  | .jmp _ => 0
  | .jz _ => 0
  | .jnz _ => 0
  | .add => 1
  | .sub => 1
  | .mul => 1
  | .div => 1
  | .print => 0
  | .stop => 0

end Sys2Proof.Machine
end

