-- ==== Sys2Proof/Certificates/Slice0/Obligations.lean ====
section
/-! DEFINITION. The statements for the provers. Each docstring names the rules it formalises. A statement that rests on a
choice the spec marks as its own ("decision Dn", "derived") or on a choice of the model (log n) says so and is listed with
basis derived. Where a statement says `steps := n` for some n, the count is stated apart, in
`CompletedInstructionsAreCounted`. -/

open Sys2Proof Sys2Proof.Machine

/-! ## Encoding -/

/-- 30_encoding.md sections 1, 2 and 4: under every injective opcode map the decoder gives back every well-formed instruction
from its bytes, and leaves the bytes after them. -/
def Obligations.DecodeOfEncodeGivesTheInstruction : Prop :=
  ∀ (m : OpcodeMap) (i : Instr) (rest : List Byte), m.Wf → i.wf = true →
    decode m (encode m i ++ rest) = .ok (i, rest)

/-- 30_encoding.md sections 1, 2 and 4, the other direction: whatever bytes the decoder accepts, it read a well-formed
instruction, and the bytes are that instruction's encoding and the bytes it left. -/
def Obligations.DecodedBytesAreTheEncoding : Prop :=
  ∀ (m : OpcodeMap) (bs : List Byte) (i : Instr) (rest : List Byte),
    decode m bs = .ok (i, rest) → i.wf = true ∧ bs = encode m i ++ rest

/-- 30_encoding.md section 4 (R78): a program has no header and no padding, and its instructions are recovered by decoding in
sequence from its first byte. -/
def Obligations.ProgramBytesDecodeInSequence : Prop :=
  ∀ (m : OpcodeMap) (is : List Instr), m.Wf → (∀ i ∈ is, i.wf = true) →
    decodeProgram m (encodeProgram m is).length (encodeProgram m is) = .ok is

/-- R75: decoding compares the whole byte with the map. -/
def Obligations.OpcodeByteNamesItsMnemonic : Prop :=
  ∀ (m : OpcodeMap) (op : Byte), m.Wf →
    (∀ k, m.decodeByte op = some k ↔ m.byte k = op) ∧
    (m.decodeByte op = none ↔ ∀ k, m.byte k ≠ op)

/-- 30_encoding.md sections 1 and 2: a register index is the byte after the opcode, unsigned; a jump target is two bytes,
unsigned, the first less significant; a literal is the word the four bytes form, the first least significant. That
little-endian means this order is general knowledge the spec supplies (log 11). -/
def Obligations.OperandFieldsAreReadAsTheTableSays : Prop :=
  ∀ (m : OpcodeMap) (b0 b1 b2 b3 : Byte) (rest : List Byte), m.Wf →
    decode m (m.load :: b0 :: rest) = .ok (.load b0.toNat, rest) ∧
    decode m (m.store :: b0 :: rest) = .ok (.store b0.toNat, rest) ∧
    decode m (m.jmp :: b0 :: b1 :: rest) = .ok (.jmp (b1 ++ b0).toNat, rest) ∧
    decode m (m.jz :: b0 :: b1 :: rest) = .ok (.jz (b1 ++ b0).toNat, rest) ∧
    decode m (m.jnz :: b0 :: b1 :: rest) = .ok (.jnz (b1 ++ b0).toNat, rest) ∧
    decode m (m.push :: b0 :: b1 :: b2 :: b3 :: rest) = .ok (.push (b3 ++ b2 ++ b1 ++ b0), rest)

/-- R77: every value of the operand bytes is a legal encoding; a register index or a target out of range is detected when the
instruction executes. -/
def Obligations.OperandBytesAreNeverIllegal : Prop :=
  (∀ (m : OpcodeMap) (k : Mnemonic) (bs : List Byte), m.Wf → bs.length = k.width →
    ∃ i, i.mnemonic = k ∧ decode m (m.byte k :: bs) = .ok (i, [])) ∧
  (∀ (s : State) (r : Nat), s.Inv → s.cfg.cRegs ≤ r →
    Raises (.load r) s .invalidRegister ∧ Raises (.store r) s .invalidRegister) ∧
  (∀ (s : State) (a : Nat), s.Inv → s.cfg.cProg ≤ a → Raises (.jmp a) s .invalidJumpTarget) ∧
  (∀ (s : State) (a : Nat), s.Inv → s.cfg.cProg ≤ a → 1 ≤ s.sp → s.st[s.sp - 1]? = some 0 →
    Raises (.jz a) s .invalidJumpTarget) ∧
  (∀ (s : State) (a : Nat) (v : Word), s.Inv → s.cfg.cProg ≤ a → 1 ≤ s.sp → s.st[s.sp - 1]? = some v → v ≠ 0 →
    Raises (.jnz a) s .invalidJumpTarget)

/-- 30_encoding.md section 6, the example encodings under the default map (decision D1). A sanity check of the decoder on
words written out from the table. -/
def Obligations.ExampleWordsDecode : Prop :=
  decodeTableWord 8 0x00 = some .nop ∧
  decodeTableWord 40 0x8000000001 = some (.push 0x80000000) ∧
  decodeTableWord 16 0x0303 = some (.load 3) ∧
  decodeTableWord 16 0xFF04 = some (.store 255) ∧
  decodeTableWord 24 0x010205 = some (.jmp 258) ∧
  decodeTableWord 24 0xFFFF07 = some (.jnz 65535) ∧
  decodeTableWord 8 0x0A = some .mul ∧
  decodeTableWord 8 0x0D = some .stop ∧
  decodeTableWord 8 0x0E = none

/-- 30_encoding.md section 2 (R74, decision D1: "any injective assignment of the 14 mnemonics to byte values gives the same
semantics"): executing an instruction under another map gives the same result, but for the map itself and the opcode byte a
fault records. -/
def Obligations.OpcodeValuesDoNotChangeMeaning : Prop :=
  ∀ (s : State) (i : Instr) (m : OpcodeMap), s.Inv → m.Wf → s.status = .running →
    exec i { s with cfg := { s.cfg with opcodeMap := m } } =
      mapNext (fun t => t.withMap m (m.byte i.mnemonic)) (exec i s)

/-- 30_encoding.md section 5 (R80, decision D18; log 13): what the assembler emits is well formed. -/
def Obligations.AssembledInstructionsAreWellFormed : Prop :=
  ∀ (items : List AsmItem) (is : List Instr), assemble items = some is → ∀ i ∈ is, i.wf = true

/-- 30_encoding.md section 5 (R80, decision D18): "A label stands for the byte address of the next instruction": the
address is the length of the bytes emitted before it. -/
def Obligations.LabelIsTheAddressOfTheNextInstruction : Prop :=
  ∀ (pre post : List AsmItem) (it : AsmItem) (l : List Char) (is : List Instr) (m : OpcodeMap),
    it.label = some l → assemble (pre ++ it :: post) = some is →
    ∃ before after, is = before ++ after ∧
      assembleItems (labelTable 0 (pre ++ it :: post)) pre = some before ∧
      (labelTable 0 (pre ++ it :: post)).lookup l = some (encodeProgram m before).length

/-! ## The step -/

/-- 40_dispatch.md section 1: when the bytes at the pc are the encoding of `i`, inside the loaded bytes, a step of a RUNNING
core within its budget is `exec i`, which advances the pc and counts the instruction itself (log 10). -/
def Obligations.StepRunsTheInstructionAtThePc : Prop :=
  ∀ (s : State) (i : Instr), s.Inv → s.status = .running → budgetUsedUp s = false → i.wf = true →
    s.pc + i.length ≤ s.progLen →
    (∀ k, k < i.length → (encode s.cfg.opcodeMap i)[k]? = some (Memory.read s.prog (s.pc + k))) →
    step s = exec i s

/-- 40_dispatch.md section 1 (R95, "derived"): the model's fetch, which decodes a window of bytes, is the pseudocode of R95
line by line. -/
def Obligations.FetchFollowsThePseudocode : Prop :=
  ∀ s : State, s.Inv → fetch s = fetchAsWritten s

/-- 60_exceptions.md section 1, the order of R204 (decision D9), with 40_dispatch.md section 1 (decisions D6, D7, D14): the
faults a step raises before it executes, first that applies, and the whole effect of each. -/
def Obligations.StepFaultsInTheOrderOfTheTable : Prop :=
  ∀ s : State, s.Inv → s.status = .running →
    (∀ b, s.cfg.stepBudget = some b → b ≤ s.steps →
      step s = .next { s with status := .faulted, fault := ⟨some .stepBudgetExceeded, false, 0, s.pc⟩ }) ∧
    (budgetUsedUp s = false → s.progLen ≤ s.pc →
      step s = .next { s with status := .faulted, fault := ⟨some .invalidOpcode, false, 0, s.pc⟩ }) ∧
    (budgetUsedUp s = false → s.pc < s.progLen →
      s.cfg.opcodeMap.decodeByte (Memory.read s.prog s.pc) = none →
      step s = .next
        { s with status := .faulted, fault := ⟨some .invalidOpcode, true, Memory.read s.prog s.pc, s.pc⟩ }) ∧
    (∀ k, budgetUsedUp s = false → s.pc < s.progLen →
      s.cfg.opcodeMap.decodeByte (Memory.read s.prog s.pc) = some k → s.progLen < s.pc + 1 + k.width →
      step s = .next
        { s with status := .faulted, fault := ⟨some .invalidOpcode, true, Memory.read s.prog s.pc, s.pc⟩ })

/-- R96: no step outside RUNNING, and only RESET leaves STOPPED and FAULTED. -/
def Obligations.NoStepOutsideRunning : Prop :=
  (∀ s : State, s.status ≠ .running → ∀ t, step s ≠ .next t) ∧
  (∀ (s t : State) (a : Transaction), s.Halted → transact a s = some t → a = .reset)

/-- R206: FAULTED is left only by RESET, and RESET discards the run. -/
def Obligations.FaultedIsLeftOnlyByReset : Prop :=
  ∀ s : State, s.status = .faulted →
    (∀ t, step s ≠ .next t) ∧
    (∀ (a : Transaction) (t : State), transact a s = some t → a = .reset ∧ t = State.resetWith s.cfg)

/-- 60_exceptions.md section 1 (R205, decision D8): a step that ends FAULTED changes `status` and the fault record and
nothing else, and records its own start address. -/
def Obligations.FaultsArePrecise : Prop :=
  ∀ s t : State, s.Inv → step s = .next t → t.status = .faulted →
    t = { s with status := .faulted, fault := t.fault } ∧ t.fault.faultPc = s.pc ∧
    ∃ k, t.fault.kind = some k ∧ k ≠ .loadError

/-- 60_exceptions.md section 1, the OPCODE columns of R201 (decisions D11, D13): the opcode byte is recorded exactly when one
was fetched: not for a used-up budget and not for a fetch at or past `prog_len`; else it is the byte at the pc. -/
def Obligations.FaultRecordsTheFetchedOpcode : Prop :=
  ∀ s t : State, s.Inv → step s = .next t → t.status = .faulted →
    (t.fault.opcodeValid = true ↔ budgetUsedUp s = false ∧ s.pc < s.progLen) ∧
    (t.fault.opcodeValid = true → t.fault.opcode = Memory.read s.prog s.pc) ∧
    (t.fault.opcodeValid = false → t.fault.opcode = 0)

/-- 40_dispatch.md section 1 and 10_state.md section 3 (R30, R94; decisions D8, D14): a step of a RUNNING core adds one to
`steps` when its instruction completes and leaves it when it faults. -/
def Obligations.CompletedInstructionsAreCounted : Prop :=
  ∀ s t : State, step s = .next t →
    (t.status ≠ .faulted → t.steps = s.steps + 1) ∧ (t.status = .faulted → t.steps = s.steps)

/-- 70_reset_and_hazards.md section 1 (R230, decision D12) and 44_output_and_halt.md (R184, "derived"): the life cycle. A
step goes from RUNNING to RUNNING, STOPPED (by STOP only) or FAULTED; the host's transactions move as drawn. -/
def Obligations.LifeCycleIsAsDrawn : Prop :=
  (∀ s t : State, step s = .next t →
    s.status = .running ∧
    (t.status = .running ∨ t.status = .faulted ∨ (t.status = .stopped ∧ fetch s = .instr .stop))) ∧
  (∀ (s t : State) (a : Transaction), transact a s = some t →
    match a with
    | .reset => t.status = .idle
    | .loadProgram _ => s.status = .idle ∧ (t.status = .loaded ∨ t.status = .faulted)
    | .start => s.status = .loaded ∧ t.status = .running)

/-! ## Data movement -/

/-- R120: NOP changes only the pc and `steps`, on any stack. -/
def Obligations.NopOnlyAdvances : Prop :=
  (∀ m : OpcodeMap, encode m .nop = [m.nop]) ∧
  ∀ s : State, ∃ n, exec .nop s = .next { s with pc := s.pc + 1, steps := n }

/-- R121: PUSH. -/
def Obligations.PushPutsTheLiteralOnTop : Prop :=
  (∀ (m : OpcodeMap) (v : Word), encode m (.push v) =
    [m.push, v.extractLsb' 0 8, v.extractLsb' 8 8, v.extractLsb' 16 8, v.extractLsb' 24 8]) ∧
  ∀ (s : State) (v : Word), s.Inv →
    (s.sp < s.cfg.cStack →
      ∃ n, exec (.push v) s = .next { s with st := s.st.set s.sp v, sp := s.sp + 1, pc := s.pc + 5, steps := n }) ∧
    (s.sp = s.cfg.cStack → Raises (.push v) s .stackOverflow)

/-- R122: POP; the popped cell keeps its value. -/
def Obligations.PopDiscardsTheTop : Prop :=
  (∀ m : OpcodeMap, encode m .pop = [m.pop]) ∧
  ∀ s : State,
    (1 ≤ s.sp → ∃ n, exec .pop s = .next { s with sp := s.sp - 1, pc := s.pc + 1, steps := n }) ∧
    (s.sp = 0 → Raises .pop s .stackUnderflow)

/-- 41_data_movement.md, LOAD (order of the checks: decision D9; the count: decision D14): pushes a copy of the register,
which keeps its value. -/
def Obligations.LoadPushesTheRegister : Prop :=
  ∀ (s : State) (r : Nat), s.Inv →
    (r < s.cfg.cRegs → s.sp < s.cfg.cStack →
      ∃ v, s.x[r]? = some v ∧ exec (.load r) s = .next
        { s with st := s.st.set s.sp v, sp := s.sp + 1, pc := s.pc + 2, steps := s.steps + 1 }) ∧
    (s.cfg.cRegs ≤ r → Raises (.load r) s .invalidRegister) ∧
    (r < s.cfg.cRegs → s.sp = s.cfg.cStack → Raises (.load r) s .stackOverflow)

/-- 41_data_movement.md, STORE (order of the checks: decision D9; the count: decision D14): pops into the register. -/
def Obligations.StorePopsIntoTheRegister : Prop :=
  ∀ (s : State) (r : Nat), s.Inv →
    (r < s.cfg.cRegs → 1 ≤ s.sp →
      ∃ v, s.st[s.sp - 1]? = some v ∧ exec (.store r) s = .next
        { s with x := s.x.set r v, sp := s.sp - 1, pc := s.pc + 2, steps := s.steps + 1 }) ∧
    (s.cfg.cRegs ≤ r → Raises (.store r) s .invalidRegister) ∧
    (r < s.cfg.cRegs → s.sp = 0 → Raises (.store r) s .stackUnderflow)

/-- 41_data_movement.md (R125, "derived"): `PUSH n; STORE r; LOAD r` with room on the stack leaves `x[r] = n`, TOS `n` and
`sp` one more, and touches no other register. -/
def Obligations.RegisterRoundTrip : Prop :=
  ∀ (s : State) (v : Word) (r : Nat), s.Inv → r < s.cfg.cRegs → s.sp < s.cfg.cStack →
    ∃ s1 s2 s3, exec (.push v) s = .next s1 ∧ exec (.store r) s1 = .next s2 ∧ exec (.load r) s2 = .next s3 ∧
      s3.x[r]? = some v ∧ s3.st[s3.sp - 1]? = some v ∧ s3.sp = s.sp + 1 ∧ (∀ j, j ≠ r → s3.x[j]? = s.x[j]?)

/-! ## Control flow -/

/-- R140: JMP. The target is checked against the capacity; one between `prog_len` and `C_PROG` is accepted, and the next step
faults there, when the step budget, if there is one, leaves it a step. -/
def Obligations.JmpSetsThePc : Prop :=
  (∀ (m : OpcodeMap) (a : Nat), encode m (.jmp a) = [m.jmp, BitVec.ofNat 8 a, BitVec.ofNat 8 (a / 256)]) ∧
  (∀ (s : State) (a : Nat),
    (a < s.cfg.cProg → ∃ n, exec (.jmp a) s = .next { s with pc := a, steps := n }) ∧
    (s.cfg.cProg ≤ a → Raises (.jmp a) s .invalidJumpTarget)) ∧
  (∀ (s : State) (a : Nat), s.Inv → s.status = .running → s.progLen ≤ a → a < s.cfg.cProg →
    ∃ t, exec (.jmp a) s = .next t ∧ (budgetUsedUp t = false →
      ∃ u, step t = .next u ∧ u.status = .faulted ∧ u.fault.kind = some .invalidOpcode ∧ u.fault.faultPc = a))

/-- 42_control_flow.md, JZ (decision D10: only a taken jump's target is checked; the count: decision D14): the word 0 takes
the jump, any other falls through, and the value is popped either way. -/
def Obligations.JzJumpsOnZero : Prop :=
  ∀ (s : State) (a : Nat) (v : Word), s.Inv →
    (1 ≤ s.sp → s.st[s.sp - 1]? = some v → v = 0 → a < s.cfg.cProg →
      exec (.jz a) s = .next { s with sp := s.sp - 1, pc := a, steps := s.steps + 1 }) ∧
    (1 ≤ s.sp → s.st[s.sp - 1]? = some v → v ≠ 0 →
      exec (.jz a) s = .next { s with sp := s.sp - 1, pc := s.pc + 3, steps := s.steps + 1 }) ∧
    (s.sp = 0 → Raises (.jz a) s .stackUnderflow) ∧
    (1 ≤ s.sp → s.st[s.sp - 1]? = some v → v = 0 → s.cfg.cProg ≤ a → Raises (.jz a) s .invalidJumpTarget)

/-- 42_control_flow.md, JNZ (decision D10; the count: decision D14): every word but 0 takes the jump. -/
def Obligations.JnzJumpsOnNonzero : Prop :=
  ∀ (s : State) (a : Nat) (v : Word), s.Inv →
    (1 ≤ s.sp → s.st[s.sp - 1]? = some v → v ≠ 0 → a < s.cfg.cProg →
      exec (.jnz a) s = .next { s with sp := s.sp - 1, pc := a, steps := s.steps + 1 }) ∧
    (1 ≤ s.sp → s.st[s.sp - 1]? = some v → v = 0 →
      exec (.jnz a) s = .next { s with sp := s.sp - 1, pc := s.pc + 3, steps := s.steps + 1 }) ∧
    (s.sp = 0 → Raises (.jnz a) s .stackUnderflow) ∧
    (1 ≤ s.sp → s.st[s.sp - 1]? = some v → v ≠ 0 → s.cfg.cProg ≤ a → Raises (.jnz a) s .invalidJumpTarget)

/-- R144: a conditional jump that completes has popped exactly one value, taken or not. -/
def Obligations.ConditionalJumpsPopOneValue : Prop :=
  ∀ (s t : State) (a : Nat) (i : Instr), i = .jz a ∨ i = .jnz a → s.status = .running →
    exec i s = .next t → t.status ≠ .faulted → t.sp + 1 = s.sp ∧ t.st = s.st

/-! ## Arithmetic -/

/-- 43_arithmetic.md section 1, ADD (the wrap: decision D3; the count: decision D14). -/
def Obligations.AddReplacesTwoWordsByTheirSum : Prop :=
  ∀ s : State, s.Inv →
    (2 ≤ s.sp → ∃ lhs rhs, s.st[s.sp - 2]? = some lhs ∧ s.st[s.sp - 1]? = some rhs ∧ exec .add s = .next
      { s with st := s.st.set (s.sp - 2) (word (sint lhs + sint rhs)), sp := s.sp - 1, pc := s.pc + 1,
               steps := s.steps + 1 }) ∧
    (s.sp < 2 → Raises .add s .stackUnderflow)

/-- 43_arithmetic.md section 1, SUB (the wrap: decision D3; the count: decision D14): earlier-pushed minus later-pushed. -/
def Obligations.SubReplacesTwoWordsByTheirDifference : Prop :=
  ∀ s : State, s.Inv →
    (2 ≤ s.sp → ∃ lhs rhs, s.st[s.sp - 2]? = some lhs ∧ s.st[s.sp - 1]? = some rhs ∧ exec .sub s = .next
      { s with st := s.st.set (s.sp - 2) (word (sint lhs - sint rhs)), sp := s.sp - 1, pc := s.pc + 1,
               steps := s.steps + 1 }) ∧
    (s.sp < 2 → Raises .sub s .stackUnderflow)

/-- 43_arithmetic.md section 1, MUL (the wrap: decision D3; the count: decision D14); the low 32 bits are the same when the
operands are read unsigned. -/
def Obligations.MulReplacesTwoWordsByTheirProduct : Prop :=
  ∀ s : State, s.Inv →
    (2 ≤ s.sp → ∃ lhs rhs, s.st[s.sp - 2]? = some lhs ∧ s.st[s.sp - 1]? = some rhs ∧
      word (sint lhs * sint rhs) = word ((uint lhs : Int) * (uint rhs : Int)) ∧ exec .mul s = .next
      { s with st := s.st.set (s.sp - 2) (word (sint lhs * sint rhs)), sp := s.sp - 1, pc := s.pc + 1,
               steps := s.steps + 1 }) ∧
    (s.sp < 2 → Raises .mul s .stackUnderflow)

/-- 43_arithmetic.md section 1, DIV (INT_MIN / -1: decision D4; order of the checks: decision D9; the count: decision D14). -/
def Obligations.DivReplacesTwoWordsByTheQuotient : Prop :=
  ∀ (s : State) (lhs rhs : Word), s.Inv →
    (2 ≤ s.sp → s.st[s.sp - 2]? = some lhs → s.st[s.sp - 1]? = some rhs → rhs ≠ 0 → exec .div s = .next
      { s with st := s.st.set (s.sp - 2) (word (truncDiv (sint lhs) (sint rhs))), sp := s.sp - 1, pc := s.pc + 1,
               steps := s.steps + 1 }) ∧
    (2 ≤ s.sp → s.st[s.sp - 1]? = some 0 → Raises .div s .divideByZero) ∧
    (s.sp < 2 → Raises .div s .stackUnderflow)

/-- 00_scope.md section 5 (R10, general knowledge the spec supplies) with decision D4: the magnitude and the sign of the
quotient, and the one quotient that does not fit a word. -/
def Obligations.QuotientIsRoundedTowardZero : Prop :=
  (∀ a b : Int, b ≠ 0 →
    (truncDiv a b).natAbs = a.natAbs / b.natAbs ∧
    (truncDiv a b < 0 ↔ ((a < 0 ∧ 0 < b) ∨ (0 < a ∧ b < 0)) ∧ b.natAbs ≤ a.natAbs)) ∧
  (∀ lhs rhs : Word, rhs ≠ 0 →
    sint (word (truncDiv (sint lhs) (sint rhs))) =
      if lhs = 0x80000000 ∧ rhs = 0xFFFFFFFF then -2147483648 else truncDiv (sint lhs) (sint rhs))

/-- 43_arithmetic.md section 2 (operand order) with section 1 (the wrap: decision D3; INT_MIN / -1: decision D4) and
00_scope.md section 5 (rounding toward zero: general knowledge the spec supplies, log 11; the decisions: log 12): the value
pushed earlier is the left operand. -/
def Obligations.EarlierOperandIsOnTheLeft : Prop :=
  ∀ (s : State) (a b : Word), s.Inv → s.sp + 2 ≤ s.cfg.cStack →
    ∃ s1 s2, exec (.push a) s = .next s1 ∧ exec (.push b) s1 = .next s2 ∧
      (∃ t, exec .sub s2 = .next t ∧ t.sp = s.sp + 1 ∧ t.st[s.sp]? = some (a - b)) ∧
      (b ≠ 0 → ∃ t, exec .div s2 = .next t ∧ t.sp = s.sp + 1 ∧
        t.st[s.sp]? = some (word (truncDiv (sint a) (sint b))))

/-! ## Output and halt -/

/-- R180: PRINT emits the TOS, then pops it. -/
def Obligations.PrintEmitsAndPopsTheTop : Prop :=
  (∀ m : OpcodeMap, encode m .print = [m.print]) ∧
  ∀ s : State, s.Inv →
    (1 ≤ s.sp → ∃ v n, s.st[s.sp - 1]? = some v ∧
      exec .print s = .next { s with out := s.out ++ [v], sp := s.sp - 1, pc := s.pc + 1, steps := n }) ∧
    (s.sp = 0 → Raises .print s .stackUnderflow)

/-- 44_output_and_halt.md, STOP (decision D12; the count: decision D14): the stack and registers stay, the STOP is counted,
and no step follows. -/
def Obligations.StopHaltsTheCore : Prop :=
  ∀ s : State, ∃ t, exec .stop s = .next t ∧
    t = { s with status := .stopped, pc := s.pc + 1, steps := s.steps + 1 } ∧ ∀ u, step t ≠ .next u

/-- 44_output_and_halt.md (R182, "derived") and 10_state.md section 3 (R31, decision D16): output is only appended to, by a
completed PRINT only, one word at a time, in execution order. 60_exceptions.md section 3 (R215, decisions D23 and D24): the
host's text then grows by one line, the decimal text of the signed reading, with no leading zero and no `+`, and a LF. -/
def Obligations.OutputGrowsOnlyByPrint : Prop :=
  (∀ s t : State, step s = .next t →
    (t.out = s.out ∧ hostText t = hostText s) ∨
    (fetch s = .instr .print ∧ ∃ v, s.st[s.sp - 1]? = some v ∧ t.out = s.out ++ [v] ∧
      hostText t = hostText s ++ hostLine v)) ∧
  (∀ v : Word, ∃ digits : List Char,
    hostLine v = (if sint v < 0 then '-' :: digits else digits) ++ [Char.ofNat 0x0A] ∧
    (∀ c ∈ digits, c.isDigit = true) ∧ Nat.ofDigitChars 10 digits 0 = (sint v).natAbs ∧ digits ≠ [] ∧
    (digits.head? = some '0' → digits = ['0']))

/-! ## Frames and whole-machine rules -/

/-- R24: LOAD is the only instruction that reads a register and STORE the only one that writes one. -/
def Obligations.OnlyLoadAndStoreUseRegisters : Prop :=
  (∀ (s t : State) (i : Instr), exec i s = .next t → (∀ r, i ≠ .store r) → t.x = s.x) ∧
  (∀ (s t : State) (r j : Nat), exec (.store r) s = .next t → j ≠ r → t.x[j]? = s.x[j]?) ∧
  (∀ (s : State) (i : Instr) (regs : List Word), s.Inv → (∀ r, i ≠ .load r) → (∀ r, i ≠ .store r) →
    exec i (s.setRegs regs) = mapNext (fun t => t.setRegs regs) (exec i s)) ∧
  (∀ (s : State) (r : Nat), s.cfg.cRegs ≤ r →
    Raises (.load r) s .invalidRegister ∧ Raises (.store r) s .invalidRegister)

/-- R52: no step writes the program store, and the host may not load while RUNNING. -/
def Obligations.ProgramStoreIsReadOnlyWhileRunning : Prop :=
  (∀ s t : State, step s = .next t →
    t.prog = s.prog ∧ t.progLen = s.progLen ∧ ∀ a, t.readByte a = s.readByte a) ∧
  (∀ (s : State) (src : Source), s.status = .running → transact (.loadProgram src) s = none)

/-- 00_scope.md section 4 (R7, decision D19): no step and no transaction, RESET included, changes the parameters. -/
def Obligations.ParametersNeverChange : Prop :=
  (∀ s t : State, step s = .next t → t.cfg = s.cfg) ∧
  (∀ (s t : State) (a : Transaction), transact a s = some t → t.cfg = s.cfg)

/-- Frame of NOP, PUSH, POP, LOAD and STORE (41_data_movement.md; the fault case: decision D8). Unchanged: every byte of the
store, the output, every register but STORE's own, every stack cell but the one PUSH or LOAD fills at `sp`, the fault record
and the status unless a fault is taken. -/
def Obligations.DataMovementFrame : Prop :=
  ∀ (s t : State) (i : Instr),
    (i = .nop ∨ (∃ v, i = .push v) ∨ i = .pop ∨ (∃ r, i = .load r) ∨ (∃ r, i = .store r)) →
    exec i s = .next t →
    (∀ a, t.readByte a = s.readByte a) ∧ t.progLen = s.progLen ∧ t.cfg = s.cfg ∧ t.out = s.out ∧
    (∀ j, i ≠ .store j → t.x[j]? = s.x[j]?) ∧
    (∀ j, j ≠ s.sp → t.st[j]? = s.st[j]?) ∧
    (i = .nop ∨ i = .pop ∨ (∃ r, i = .store r) → t.st = s.st) ∧ (i = .nop → t.sp = s.sp) ∧
    ((t.status = s.status ∧ t.fault = s.fault) ∨
      (t.status = .faulted ∧ t.st = s.st ∧ t.sp = s.sp ∧ t.x = s.x ∧ t.pc = s.pc ∧ t.steps = s.steps))

/-- Frame of JMP, JZ and JNZ (42_control_flow.md; the fault case: decision D8): only the pc, `sp` (JZ and JNZ) and `steps`
change, or a fault is taken. -/
def Obligations.ControlFlowFrame : Prop :=
  ∀ (s t : State) (i : Instr) (a : Nat), (i = .jmp a ∨ i = .jz a ∨ i = .jnz a) → exec i s = .next t →
    (∀ b, t.readByte b = s.readByte b) ∧ t.progLen = s.progLen ∧ t.cfg = s.cfg ∧ t.out = s.out ∧
    t.x = s.x ∧ t.st = s.st ∧ (i = .jmp a → t.sp = s.sp) ∧
    ((t.status = s.status ∧ t.fault = s.fault) ∨
      (t.status = .faulted ∧ t.sp = s.sp ∧ t.pc = s.pc ∧ t.steps = s.steps))

/-- 43_arithmetic.md section 2 (R167, "derived"; the fault case: decision D8). Frame of ADD, SUB, MUL and DIV: only the cell
of the left operand, `sp`, the pc and `steps` change, or a fault is taken; on success `sp` is one smaller and the pc one
more. -/
def Obligations.ArithmeticFrame : Prop :=
  ∀ (s t : State) (i : Instr), (i = .add ∨ i = .sub ∨ i = .mul ∨ i = .div) → exec i s = .next t →
    (∀ a, t.readByte a = s.readByte a) ∧ t.progLen = s.progLen ∧ t.cfg = s.cfg ∧ t.out = s.out ∧ t.x = s.x ∧
    (∀ j, j + 2 ≠ s.sp → t.st[j]? = s.st[j]?) ∧
    ((t.status = s.status ∧ t.fault = s.fault ∧ t.sp + 1 = s.sp ∧ t.pc = s.pc + 1) ∨
      (t.status = .faulted ∧ t.st = s.st ∧ t.sp = s.sp ∧ t.pc = s.pc ∧ t.steps = s.steps))

/-- Frame of PRINT and STOP (44_output_and_halt.md; the fault case: decision D8). -/
def Obligations.OutputAndHaltFrame : Prop :=
  ∀ (s t : State) (i : Instr), (i = .print ∨ i = .stop) → exec i s = .next t →
    (∀ a, t.readByte a = s.readByte a) ∧ t.progLen = s.progLen ∧ t.cfg = s.cfg ∧ t.x = s.x ∧ t.st = s.st ∧
    (i = .stop → t.out = s.out ∧ t.sp = s.sp ∧ t.fault = s.fault ∧ t.status = .stopped) ∧
    (i = .print → (t.status = s.status ∧ t.fault = s.fault) ∨
      (t.status = .faulted ∧ t.out = s.out ∧ t.sp = s.sp ∧ t.pc = s.pc ∧ t.steps = s.steps))

/-- 40_dispatch.md section 2 (R103, "derived"): a completed instruction had the words it pops and moves `sp` by what it pushes
less what it pops; without those words it faults, StackUnderflow is raised only then, and StackOverflow only by an
instruction that pushes one more than it pops, on a full stack. -/
def Obligations.NetStackEffect : Prop :=
  ∀ (s t : State) (i : Instr), s.Inv → s.status = .running → exec i s = .next t →
    (t.status ≠ .faulted → wordsPopped i ≤ s.sp ∧ t.sp = s.sp - wordsPopped i + wordsPushed i) ∧
    (s.sp < wordsPopped i → t.status = .faulted) ∧
    (t.fault.kind = some .stackUnderflow → s.sp < wordsPopped i) ∧
    (t.fault.kind = some .stackOverflow → wordsPushed i = wordsPopped i + 1 ∧ s.sp = s.cfg.cStack)

/-! ## Invariants -/

/-- 10_state.md section 6 (R36, R37): every state RESET gives meets the invariant. -/
def Obligations.ResetMeetsTheInvariant : Prop :=
  ∀ c : Config, c.Wf → (State.resetWith c).Inv

/-- 10_state.md section 6 (R37, "derived") with 20_memory.md section 1 (decision D6): every step keeps the invariant. -/
def Obligations.StepKeepsTheInvariant : Prop :=
  ∀ s t : State, s.Inv → step s = .next t → t.Inv

/-- 10_state.md section 6 (R37, "derived") with 70_reset_and_hazards.md section 2: every host transaction keeps it. -/
def Obligations.TransactionKeepsTheInvariant : Prop :=
  ∀ (s t : State) (a : Transaction), s.Inv → transact a s = some t → t.Inv

/-- 10_state.md section 6 (R37, "derived"): whatever the host does and whatever program runs, every state an instance reaches
meets the invariant, under the instance's own parameters. -/
def Obligations.ReachableStatesMeetTheInvariant : Prop :=
  ∀ (c : Config) (s : State), c.Wf → Reachable c s → s.Inv ∧ s.cfg = c

/-- 60_exceptions.md section 1 (R203, decision D14): the counter never passes the budget, and a step that starts at the budget
faults with kind 8. -/
def Obligations.BudgetIsNeverExceeded : Prop :=
  ∀ (s t : State) (b : Nat), s.cfg.stepBudget = some b → s.steps ≤ b → step s = .next t →
    t.steps ≤ b ∧ (s.steps = b → t.fault.kind = some .stepBudgetExceeded ∧ t.status = .faulted) ∧
    (t.status = .faulted → t.fault.kind = some .stepBudgetExceeded → s.steps = b)

/-- 40_dispatch.md section 1 and 20_memory.md section 4: from every state that meets the invariant, a RUNNING core's step
answers a next state: the model's own stops never occur. -/
def Obligations.EveryEnabledStepAnswers : Prop :=
  ∀ s : State, s.Inv → s.status = .running → ∃ t, step s = .next t

/-- 42_control_flow.md (R147, "derived") and 60_exceptions.md section 1 (R203, decision D14): with a step budget every run
halts, by STOP or by a fault, at the latest one step after the budget is used up. -/
def Obligations.BudgetedRunHalts : Prop :=
  ∀ (s : State) (b : Nat), s.Inv → s.status = .running → s.cfg.stepBudget = some b →
    ∃ k t, k ≤ b - s.steps + 1 ∧ core.run k s = .next t ∧ t.Halted

/-! ## What no program can observe -/

/-- 10_state.md section 4 (R34, decision D21) and 20_memory.md section 1 (R53, decision D6): two states that differ only in
stack cells at or above `sp` and in store bytes at or above `prog_len` step alike, and go on differing only there. -/
def Obligations.DeadStateIsNeverObserved : Prop :=
  ∀ s t s' : State, SameToPrograms s t → step s = .next s' → ∃ t', step t = .next t' ∧ SameToPrograms s' t'

/-! ## The host's side -/

/-- 70_reset_and_hazards.md section 2 (R235, decision D22; R237, decision D16): RESET is accepted in every state and sets
every piece of state to the value R36 lists; START is accepted in LOADED only and sets `status`, nothing else. -/
def Obligations.ResetAndStartTransactions : Prop :=
  (∀ s : State, ∃ t, transact .reset s = some t ∧
    t.cfg = s.cfg ∧ t.status = .idle ∧ (∀ a, a < s.cfg.cProg → t.readByte a = .ok 0) ∧ t.progLen = 0 ∧ t.pc = 0 ∧
    (∀ i, i < s.cfg.cStack → t.st[i]? = some 0) ∧ t.sp = 0 ∧ (∀ i, i < s.cfg.cRegs → t.x[i]? = some 0) ∧
    t.steps = 0 ∧ t.fault = ⟨none, false, 0, 0⟩ ∧ t.out = []) ∧
  (∀ s : State, s.status = .loaded → transact .start s = some { s with status := .running }) ∧
  (∀ s : State, s.status ≠ .loaded → transact .start s = none)

/-- 70_reset_and_hazards.md section 2 (R236, decision D15): LOAD_PROGRAM in IDLE places the bytes from address 0 and nothing
after them, or raises LoadError for an unreadable or too long source; elsewhere it has no transition. -/
def Obligations.LoadProgramTransaction : Prop :=
  (∀ (s : State) (bs : List Byte), s.Inv → s.status = .idle → bs.length ≤ s.cfg.cProg →
    ∃ p, transact (.loadProgram (.bytes bs)) s =
        some { s with prog := p, progLen := bs.length, status := .loaded } ∧ Memory.Wf p ∧
      (∀ k (h : k < bs.length), Memory.read p k = bs[k]) ∧ (∀ k, bs.length ≤ k → Memory.read p k = 0x00)) ∧
  (∀ (s : State) (src : Source), s.status = .idle →
    (src = .unreadable ∨ ∃ bs, src = .bytes bs ∧ s.cfg.cProg < bs.length) →
    transact (.loadProgram src) s =
      some { s with status := .faulted, fault := ⟨some .loadError, false, 0, 0⟩ }) ∧
  (∀ (s : State) (src : Source), s.status ≠ .idle → transact (.loadProgram src) s = none)

/-- 70_reset_and_hazards.md section 3 (R239, "derived"): RESET, LOAD_PROGRAM, START gives a RUNNING core at address 0 with an
empty stack and zero registers, exactly when the program fits. -/
def Obligations.BootReachesTheFirstFetch : Prop :=
  ∀ (c : Config) (bs : List Byte), c.Wf →
    (bs.length ≤ c.cProg → ∃ s, boot c bs = some s ∧ Reachable c s ∧ s.status = .running ∧ s.pc = 0 ∧ s.sp = 0 ∧
      s.steps = 0 ∧ s.progLen = bs.length ∧ s.readBytes 0 bs.length = .ok bs ∧
      (∀ i, i < c.cRegs → s.x[i]? = some 0)) ∧
    (c.cProg < bs.length → boot c bs = none)

/-- 10_state.md section 5 (R35, decision D16), with the codes of 10_state.md section 3 (R28, decision D12) and 60_exceptions.md
section 1 (R201): what each number reads, in which bits, under which code. That a read is a number without a width, and that
a number from 7 on reads nothing, is the model's choice (log 9). -/
def Obligations.StatusReadsGiveTheirFields : Prop :=
  ∀ s : State,
    ((s.status = .idle → statusRead s 0 = some 0) ∧ (s.status = .loaded → statusRead s 0 = some 1) ∧
      (s.status = .running → statusRead s 0 = some 2) ∧ (s.status = .stopped → statusRead s 0 = some 3) ∧
      (s.status = .faulted → statusRead s 0 = some 4)) ∧
    (∃ w, statusRead s 1 = some w ∧ w / 16 % 2 = s.fault.opcodeValid.toNat ∧ w / 32 = s.fault.opcode.toNat ∧
      (s.fault.kind = none → w % 16 = 0) ∧ (s.fault.kind = some .loadError → w % 16 = 1) ∧
      (s.fault.kind = some .stackOverflow → w % 16 = 2) ∧ (s.fault.kind = some .stackUnderflow → w % 16 = 3) ∧
      (s.fault.kind = some .invalidRegister → w % 16 = 4) ∧ (s.fault.kind = some .invalidJumpTarget → w % 16 = 5) ∧
      (s.fault.kind = some .invalidOpcode → w % 16 = 6) ∧ (s.fault.kind = some .divideByZero → w % 16 = 7) ∧
      (s.fault.kind = some .stepBudgetExceeded → w % 16 = 8)) ∧
    statusRead s 2 = some s.fault.faultPc ∧ statusRead s 3 = some s.progLen ∧ statusRead s 4 = some s.pc ∧
    statusRead s 5 = some s.sp ∧
    (∃ w, statusRead s 6 = some w ∧ w < 2 ^ 32 ∧ w % 2 ^ 32 = s.steps % 2 ^ 32) ∧
    (∀ n, 7 ≤ n → statusRead s n = none)

/-- log 6: an instruction placed by `withFetchWord` in a store with room is the one the next step runs. -/
def Obligations.PlacedInstructionRunsNext : Prop :=
  ∀ (s : State) (nbits w : Nat) (i : Instr), Memory.Wf s.prog → s.pc + 5 ≤ s.cfg.cProg → budgetUsedUp s = false →
    s.cfg.opcodeMap = OpcodeMap.default → decodeTableWord nbits w = some i →
    step (s.withFetchWord nbits w) = exec i (s.withFetchWord nbits w)

/-- R54 (byte order: general knowledge the spec supplies): the byte at the lowest address is bits 7 to 0. -/
def Obligations.MemReadIsLittleEndian : Prop :=
  ∀ (s : State) (a : Nat), s.Inv →
    (a + 1 ≤ s.progLen → s.memRead a 1 = .ok (Memory.read s.prog a).toNat) ∧
    (a + 2 ≤ s.progLen → s.memRead a 2 = .ok (Memory.read s.prog (a + 1) ++ Memory.read s.prog a).toNat) ∧
    (a + 4 ≤ s.progLen → s.memRead a 4 = .ok
      (Memory.read s.prog (a + 3) ++ Memory.read s.prog (a + 2) ++ Memory.read s.prog (a + 1) ++
        Memory.read s.prog a).toNat)
end

