-- ==== Sys2Proof/Laws/Decode.lean ====
section
/-! SUPPORT. Small laws of the byte order, the opcode map and the operand decoder. -/

namespace Sys2Proof

@[simp] theorem leBytes_length (w v : Nat) : (leBytes w v).length = w := by
  induction w generalizing v with
  | zero => rfl
  | succ w ih => simp [leBytes, ih]

/-- The low `w` bytes of a number stand for the number modulo `256^w`. -/
theorem littleEndian_leBytes (w v : Nat) : littleEndian (leBytes w v) = v % 256 ^ w := by
  induction w generalizing v with
  | zero => simp [leBytes, littleEndian, Nat.mod_one]
  | succ w ih => simp [leBytes, littleEndian, ih, Nat.pow_succ', Nat.mod_mul]

theorem littleEndian_lt (bs : List Byte) : littleEndian bs < 256 ^ bs.length := by
  induction bs with
  | nil => simp [littleEndian]
  | cons b bs ih =>
    have := b.isLt
    simp only [littleEndian, List.length_cons, Nat.pow_succ']
    omega

/-- Bytes are recovered from the number they stand for. -/
theorem leBytes_littleEndian (bs : List Byte) : leBytes bs.length (littleEndian bs) = bs := by
  induction bs with
  | nil => rfl
  | cons b bs ih =>
    have hb := b.isLt
    have h1 : (b.toNat + 256 * littleEndian bs) / 256 = littleEndian bs := by omega
    simp only [List.length_cons, leBytes, littleEndian, h1, ih]
    congr 1
    apply BitVec.eq_of_toNat_eq
    simp; omega

/-- The operand decoder answers exactly when there are enough bytes, and then the whole input is accounted for. -/
theorem takeOperand_eq_some {w : Nat} {bs : List Byte} {v : Nat} {rest : List Byte} :
    takeOperand w bs = some (v, rest) ↔ w ≤ bs.length ∧ v < 256 ^ w ∧ bs = leBytes w v ++ rest := by
  unfold takeOperand
  constructor
  · intro h
    split_ifs at h with hw
    simp only [Option.some.injEq, Prod.mk.injEq] at h
    obtain ⟨rfl, rfl⟩ := h
    have hl : (bs.take w).length = w := by simp [hw]
    refine ⟨hw, ?_, ?_⟩
    · simpa [hl] using littleEndian_lt (bs.take w)
    · have := leBytes_littleEndian (bs.take w)
      rw [hl] at this
      rw [this, List.take_append_drop]
  · rintro ⟨hw, hv, rfl⟩
    have hl := leBytes_length w v
    have h1 : (leBytes w v ++ rest).take w = leBytes w v := by simp [hl]
    have h2 : (leBytes w v ++ rest).drop w = rest := by simp [hl]
    rw [if_pos hw, h1, h2, littleEndian_leBytes, Nat.mod_eq_of_lt hv]

@[simp] theorem Mnemonic.mem_all (k : Mnemonic) : k ∈ Mnemonic.all := by cases k <;> decide

theorem OpcodeMap.bytes_eq (m : OpcodeMap) : m.bytes = Mnemonic.all.map m.byte := rfl

/-- Under a well-formed map two mnemonics with one byte are one mnemonic. -/
theorem OpcodeMap.byte_injective {m : OpcodeMap} (hm : m.Wf) {j k : Mnemonic} (h : m.byte j = m.byte k) : j = k := by
  rw [OpcodeMap.Wf, OpcodeMap.bytes_eq] at hm
  exact List.inj_on_of_nodup_map hm (Mnemonic.mem_all j) (Mnemonic.mem_all k) h

@[simp] theorem Mnemonic.withOperand_mnemonic (v : Nat) (k : Mnemonic) : (k.withOperand v).mnemonic = k := by
  cases k <;> rfl

/-- An instruction is its mnemonic with its operand. -/
@[simp] theorem Instr.withOperand_operand (i : Instr) : i.mnemonic.withOperand i.operand = i := by
  cases i <;> simp [Instr.mnemonic, Instr.operand, Mnemonic.withOperand]

/-- Well formed means that the operand fits its field. -/
theorem Instr.wf_iff (i : Instr) : i.wf = true ↔ i.operand < 256 ^ i.mnemonic.width := by
  cases i <;> simp [Instr.wf, Instr.operand, Instr.mnemonic, Mnemonic.width, Mnemonic.format, Format.width]
  case push n => exact n.isLt

theorem Instr.length_le (i : Instr) : i.length ≤ maxInstrLength := by
  cases i <;> simp [Instr.length, Instr.mnemonic, Mnemonic.width, Mnemonic.format, Format.width, maxInstrLength]

theorem Instr.length_pos (i : Instr) : 0 < i.length := by unfold Instr.length; omega

@[simp] theorem tableBytes_length (nbits w : Nat) : (tableBytes nbits w).length = 5 := by
  simp [tableBytes, maxInstrLength]

theorem OpcodeMap.default_wf : OpcodeMap.default.Wf := by decide

end Sys2Proof
end

