-- ==== Sys2Proof/Laws/State.lean ====
section
/-! SUPPORT. One lemma per field per update of State, so that no proof unfolds a record update. -/

namespace Sys2Proof.Machine

variable (s : State)

@[simp] theorem State.setPc_cfg (a : Nat) : (s.setPc a).cfg = s.cfg := rfl
@[simp] theorem State.setPc_status (a : Nat) : (s.setPc a).status = s.status := rfl
@[simp] theorem State.setPc_prog (a : Nat) : (s.setPc a).prog = s.prog := rfl
@[simp] theorem State.setPc_progLen (a : Nat) : (s.setPc a).progLen = s.progLen := rfl
@[simp] theorem State.setPc_pc (a : Nat) : (s.setPc a).pc = a := rfl
@[simp] theorem State.setPc_st (a : Nat) : (s.setPc a).st = s.st := rfl
@[simp] theorem State.setPc_sp (a : Nat) : (s.setPc a).sp = s.sp := rfl
@[simp] theorem State.setPc_x (a : Nat) : (s.setPc a).x = s.x := rfl
@[simp] theorem State.setPc_steps (a : Nat) : (s.setPc a).steps = s.steps := rfl
@[simp] theorem State.setPc_fault (a : Nat) : (s.setPc a).fault = s.fault := rfl
@[simp] theorem State.setPc_out (a : Nat) : (s.setPc a).out = s.out := rfl

@[simp] theorem State.setSp_cfg (n : Nat) : (s.setSp n).cfg = s.cfg := rfl
@[simp] theorem State.setSp_status (n : Nat) : (s.setSp n).status = s.status := rfl
@[simp] theorem State.setSp_prog (n : Nat) : (s.setSp n).prog = s.prog := rfl
@[simp] theorem State.setSp_progLen (n : Nat) : (s.setSp n).progLen = s.progLen := rfl
@[simp] theorem State.setSp_pc (n : Nat) : (s.setSp n).pc = s.pc := rfl
@[simp] theorem State.setSp_st (n : Nat) : (s.setSp n).st = s.st := rfl
@[simp] theorem State.setSp_sp (n : Nat) : (s.setSp n).sp = n := rfl
@[simp] theorem State.setSp_x (n : Nat) : (s.setSp n).x = s.x := rfl
@[simp] theorem State.setSp_steps (n : Nat) : (s.setSp n).steps = s.steps := rfl
@[simp] theorem State.setSp_fault (n : Nat) : (s.setSp n).fault = s.fault := rfl
@[simp] theorem State.setSp_out (n : Nat) : (s.setSp n).out = s.out := rfl

@[simp] theorem State.setStack_cfg (c : List Word) : (s.setStack c).cfg = s.cfg := rfl
@[simp] theorem State.setStack_status (c : List Word) : (s.setStack c).status = s.status := rfl
@[simp] theorem State.setStack_prog (c : List Word) : (s.setStack c).prog = s.prog := rfl
@[simp] theorem State.setStack_progLen (c : List Word) : (s.setStack c).progLen = s.progLen := rfl
@[simp] theorem State.setStack_pc (c : List Word) : (s.setStack c).pc = s.pc := rfl
@[simp] theorem State.setStack_st (c : List Word) : (s.setStack c).st = c := rfl
@[simp] theorem State.setStack_sp (c : List Word) : (s.setStack c).sp = s.sp := rfl
@[simp] theorem State.setStack_x (c : List Word) : (s.setStack c).x = s.x := rfl
@[simp] theorem State.setStack_steps (c : List Word) : (s.setStack c).steps = s.steps := rfl
@[simp] theorem State.setStack_fault (c : List Word) : (s.setStack c).fault = s.fault := rfl
@[simp] theorem State.setStack_out (c : List Word) : (s.setStack c).out = s.out := rfl

@[simp] theorem State.setRegs_cfg (r : List Word) : (s.setRegs r).cfg = s.cfg := rfl
@[simp] theorem State.setRegs_status (r : List Word) : (s.setRegs r).status = s.status := rfl
@[simp] theorem State.setRegs_prog (r : List Word) : (s.setRegs r).prog = s.prog := rfl
@[simp] theorem State.setRegs_progLen (r : List Word) : (s.setRegs r).progLen = s.progLen := rfl
@[simp] theorem State.setRegs_pc (r : List Word) : (s.setRegs r).pc = s.pc := rfl
@[simp] theorem State.setRegs_st (r : List Word) : (s.setRegs r).st = s.st := rfl
@[simp] theorem State.setRegs_sp (r : List Word) : (s.setRegs r).sp = s.sp := rfl
@[simp] theorem State.setRegs_x (r : List Word) : (s.setRegs r).x = r := rfl
@[simp] theorem State.setRegs_steps (r : List Word) : (s.setRegs r).steps = s.steps := rfl
@[simp] theorem State.setRegs_fault (r : List Word) : (s.setRegs r).fault = s.fault := rfl
@[simp] theorem State.setRegs_out (r : List Word) : (s.setRegs r).out = s.out := rfl

@[simp] theorem State.setStatus_cfg (v : Status) : (s.setStatus v).cfg = s.cfg := rfl
@[simp] theorem State.setStatus_status (v : Status) : (s.setStatus v).status = v := rfl
@[simp] theorem State.setStatus_prog (v : Status) : (s.setStatus v).prog = s.prog := rfl
@[simp] theorem State.setStatus_progLen (v : Status) : (s.setStatus v).progLen = s.progLen := rfl
@[simp] theorem State.setStatus_pc (v : Status) : (s.setStatus v).pc = s.pc := rfl
@[simp] theorem State.setStatus_st (v : Status) : (s.setStatus v).st = s.st := rfl
@[simp] theorem State.setStatus_sp (v : Status) : (s.setStatus v).sp = s.sp := rfl
@[simp] theorem State.setStatus_x (v : Status) : (s.setStatus v).x = s.x := rfl
@[simp] theorem State.setStatus_steps (v : Status) : (s.setStatus v).steps = s.steps := rfl
@[simp] theorem State.setStatus_fault (v : Status) : (s.setStatus v).fault = s.fault := rfl
@[simp] theorem State.setStatus_out (v : Status) : (s.setStatus v).out = s.out := rfl

@[simp] theorem State.setSteps_cfg (n : Nat) : (s.setSteps n).cfg = s.cfg := rfl
@[simp] theorem State.setSteps_status (n : Nat) : (s.setSteps n).status = s.status := rfl
@[simp] theorem State.setSteps_prog (n : Nat) : (s.setSteps n).prog = s.prog := rfl
@[simp] theorem State.setSteps_progLen (n : Nat) : (s.setSteps n).progLen = s.progLen := rfl
@[simp] theorem State.setSteps_pc (n : Nat) : (s.setSteps n).pc = s.pc := rfl
@[simp] theorem State.setSteps_st (n : Nat) : (s.setSteps n).st = s.st := rfl
@[simp] theorem State.setSteps_sp (n : Nat) : (s.setSteps n).sp = s.sp := rfl
@[simp] theorem State.setSteps_x (n : Nat) : (s.setSteps n).x = s.x := rfl
@[simp] theorem State.setSteps_steps (n : Nat) : (s.setSteps n).steps = n := rfl
@[simp] theorem State.setSteps_fault (n : Nat) : (s.setSteps n).fault = s.fault := rfl
@[simp] theorem State.setSteps_out (n : Nat) : (s.setSteps n).out = s.out := rfl

@[simp] theorem State.emit_cfg (v : Word) : (s.emit v).cfg = s.cfg := rfl
@[simp] theorem State.emit_status (v : Word) : (s.emit v).status = s.status := rfl
@[simp] theorem State.emit_prog (v : Word) : (s.emit v).prog = s.prog := rfl
@[simp] theorem State.emit_progLen (v : Word) : (s.emit v).progLen = s.progLen := rfl
@[simp] theorem State.emit_pc (v : Word) : (s.emit v).pc = s.pc := rfl
@[simp] theorem State.emit_st (v : Word) : (s.emit v).st = s.st := rfl
@[simp] theorem State.emit_sp (v : Word) : (s.emit v).sp = s.sp := rfl
@[simp] theorem State.emit_x (v : Word) : (s.emit v).x = s.x := rfl
@[simp] theorem State.emit_steps (v : Word) : (s.emit v).steps = s.steps := rfl
@[simp] theorem State.emit_fault (v : Word) : (s.emit v).fault = s.fault := rfl
@[simp] theorem State.emit_out (v : Word) : (s.emit v).out = s.out ++ [v] := rfl

@[simp] theorem State.enterFault_cfg (k : FaultKind) (op : Option Byte) : (s.enterFault k op).cfg = s.cfg := rfl
@[simp] theorem State.enterFault_status (k : FaultKind) (op : Option Byte) : (s.enterFault k op).status = .faulted := rfl
@[simp] theorem State.enterFault_prog (k : FaultKind) (op : Option Byte) : (s.enterFault k op).prog = s.prog := rfl
@[simp] theorem State.enterFault_progLen (k : FaultKind) (op : Option Byte) : (s.enterFault k op).progLen = s.progLen := rfl
@[simp] theorem State.enterFault_pc (k : FaultKind) (op : Option Byte) : (s.enterFault k op).pc = s.pc := rfl
@[simp] theorem State.enterFault_st (k : FaultKind) (op : Option Byte) : (s.enterFault k op).st = s.st := rfl
@[simp] theorem State.enterFault_sp (k : FaultKind) (op : Option Byte) : (s.enterFault k op).sp = s.sp := rfl
@[simp] theorem State.enterFault_x (k : FaultKind) (op : Option Byte) : (s.enterFault k op).x = s.x := rfl
@[simp] theorem State.enterFault_steps (k : FaultKind) (op : Option Byte) : (s.enterFault k op).steps = s.steps := rfl
@[simp] theorem State.enterFault_fault (k : FaultKind) (op : Option Byte) : (s.enterFault k op).fault = { kind := some k, opcodeValid := op.isSome, opcode := op.getD 0, faultPc := s.pc } := rfl
@[simp] theorem State.enterFault_out (k : FaultKind) (op : Option Byte) : (s.enterFault k op).out = s.out := rfl

@[simp] theorem State.resetWith_cfg (c : Config) : (State.resetWith c).cfg = c := rfl
@[simp] theorem State.resetWith_status (c : Config) : (State.resetWith c).status = .idle := rfl
@[simp] theorem State.resetWith_prog (c : Config) : (State.resetWith c).prog = [] := rfl
@[simp] theorem State.resetWith_progLen (c : Config) : (State.resetWith c).progLen = 0 := rfl
@[simp] theorem State.resetWith_pc (c : Config) : (State.resetWith c).pc = 0 := rfl
@[simp] theorem State.resetWith_st (c : Config) : (State.resetWith c).st = List.replicate c.cStack 0 := rfl
@[simp] theorem State.resetWith_sp (c : Config) : (State.resetWith c).sp = 0 := rfl
@[simp] theorem State.resetWith_x (c : Config) : (State.resetWith c).x = List.replicate c.cRegs 0 := rfl
@[simp] theorem State.resetWith_steps (c : Config) : (State.resetWith c).steps = 0 := rfl
@[simp] theorem State.resetWith_fault (c : Config) : (State.resetWith c).fault = FaultRecord.clear := rfl
@[simp] theorem State.resetWith_out (c : Config) : (State.resetWith c).out = [] := rfl

/-- Popping moves the stack pointer and nothing else. -/
@[simp] theorem pop_eq : pop s = s.setSp (s.sp - 1) := rfl

end Sys2Proof.Machine
end

