-- ==== Sys2Proof/Laws/Ops.lean ====
section
/-! SUPPORT. One lemma per shared operation that says all it can do, and one inversion lemma per meaning: if it answers a
next state, that state is the completed one or the fault entry. Later proofs cite these and unfold nothing. -/

namespace Sys2Proof.Machine

variable {s t : State} {k : Nat} {v lhs rhs : Word} {e : Stop} {u : Unit}

/-! ## Except -/

@[simp] theorem Except.ok_bind {α β ε : Type} (a : α) (f : α → Except ε β) : (Except.ok a >>= f) = f a := rfl
@[simp] theorem Except.error_bind {α β ε : Type} (e : ε) (f : α → Except ε β) :
    ((Except.error e : Except ε α) >>= f) = Except.error e := rfl

/-- A sequence completes when both parts do. -/
theorem bind_ok {α β ε : Type} {x : Except ε α} {f : α → Except ε β} {b : β} :
    (x >>= f) = .ok b ↔ ∃ a, x = .ok a ∧ f a = .ok b := by
  cases x <;> simp

/-- A sequence stops where its first part stops, or in the second. -/
theorem bind_error {α β ε : Type} {x : Except ε α} {f : α → Except ε β} {e : ε} :
    (x >>= f) = .error e ↔ x = .error e ∨ ∃ a, x = .ok a ∧ f a = .error e := by
  cases x <;> simp

/-! ## Checks -/

theorem checkPush_ok : checkPush k s = .ok u ↔ s.sp + k ≤ s.cfg.cStack := by
  unfold checkPush; split_ifs <;> simp <;> omega

theorem checkPush_error : checkPush k s = .error e ↔ s.cfg.cStack < s.sp + k ∧ e = .raise .stackOverflow := by
  unfold checkPush; split_ifs <;> simp [*, eq_comm]

theorem checkPop_ok : checkPop k s = .ok u ↔ k ≤ s.sp := by
  unfold checkPop; split_ifs <;> simp <;> omega

theorem checkPop_error : checkPop k s = .error e ↔ s.sp < k ∧ e = .raise .stackUnderflow := by
  unfold checkPop; split_ifs <;> simp [*, eq_comm]

theorem checkReg_ok : checkReg k s = .ok u ↔ k < s.cfg.cRegs := by
  unfold checkReg; split_ifs <;> simp <;> omega

theorem checkReg_error : checkReg k s = .error e ↔ s.cfg.cRegs ≤ k ∧ e = .raise .invalidRegister := by
  unfold checkReg; split_ifs <;> simp [*, eq_comm]

theorem checkTarget_ok : checkTarget k s = .ok u ↔ k < s.cfg.cProg := by
  unfold checkTarget; split_ifs <;> simp <;> omega

theorem checkTarget_error : checkTarget k s = .error e ↔ s.cfg.cProg ≤ k ∧ e = .raise .invalidJumpTarget := by
  unfold checkTarget; split_ifs <;> simp [*, eq_comm]

/-! ## Cells and registers -/

theorem readCell_ok : readCell k s = .ok v ↔ s.st[k]? = some v := by
  unfold readCell; cases s.st[k]? <;> simp

theorem readCell_error : readCell k s = .error e ↔ s.st[k]? = none ∧ e = .absent (.noStackCell k) := by
  unfold readCell; cases s.st[k]? <;> simp [eq_comm]

theorem readReg_ok : readReg k s = .ok v ↔ s.x[k]? = some v := by
  unfold readReg; cases s.x[k]? <;> simp

theorem readReg_error : readReg k s = .error e ↔ s.x[k]? = none ∧ e = .absent (.noRegister k) := by
  unfold readReg; cases s.x[k]? <;> simp [eq_comm]

theorem writeReg_ok : writeReg k v s = .ok t ↔ k < s.x.length ∧ t = s.setRegs (s.x.set k v) := by
  unfold writeReg; split_ifs <;> simp [*, eq_comm]

theorem writeReg_error : writeReg k v s = .error e ↔ s.x.length ≤ k ∧ e = .absent (.noRegister k) := by
  unfold writeReg; split_ifs <;> simp [*, eq_comm]; omega

theorem push_ok :
    push v s = .ok t ↔ s.sp < s.st.length ∧ t = (s.setStack (s.st.set s.sp v)).setSp (s.sp + 1) := by
  unfold push writeCell; split_ifs <;> simp [*, eq_comm]

theorem push_error : push v s = .error e ↔ s.st.length ≤ s.sp ∧ e = .absent (.noStackCell s.sp) := by
  unfold push writeCell; split_ifs <;> simp [*, eq_comm]; omega

theorem topOperand_ok : topOperand s = .ok v ↔ 1 ≤ s.sp ∧ s.st[s.sp - 1]? = some v := by
  simp only [topOperand, top, bind_ok, checkPop_ok, readCell_ok, exists_const]

theorem topOperand_error : topOperand s = .error e ↔
    (s.sp = 0 ∧ e = .raise .stackUnderflow) ∨
    (1 ≤ s.sp ∧ s.st[s.sp - 1]? = none ∧ e = .absent (.noStackCell (s.sp - 1))) := by
  simp only [topOperand, top, bind_error, checkPop_ok, checkPop_error, readCell_error, Nat.lt_one_iff, exists_const]

theorem stackOperands_ok : stackOperands s = .ok (lhs, rhs) ↔
    2 ≤ s.sp ∧ s.st[s.sp - 1]? = some rhs ∧ s.st[s.sp - 2]? = some lhs := by
  simp only [stackOperands, top, bind_ok, checkPop_ok, readCell_ok, pop_eq, State.setSp_sp, State.setSp_st, Nat.sub_sub]
  constructor
  · rintro ⟨-, h2, r, hr, l, hl, h⟩
    cases h
    exact ⟨h2, hr, hl⟩
  · rintro ⟨h2, hr, hl⟩
    exact ⟨(), h2, rhs, hr, lhs, hl, rfl⟩

theorem stackOperands_error : stackOperands s = .error e ↔
    (s.sp < 2 ∧ e = .raise .stackUnderflow) ∨
    (2 ≤ s.sp ∧ s.st[s.sp - 1]? = none ∧ e = .absent (.noStackCell (s.sp - 1))) ∨
    (2 ≤ s.sp ∧ (∃ v, s.st[s.sp - 1]? = some v) ∧ s.st[s.sp - 2]? = none ∧ e = .absent (.noStackCell (s.sp - 2))) := by
  simp only [stackOperands, top, bind_error, checkPop_ok, checkPop_error, readCell_error, readCell_ok, pop_eq,
    State.setSp_sp, State.setSp_st, Nat.sub_sub]
  constructor
  · rintro (h | ⟨_, h2, h | ⟨v, hv, h | ⟨_, _, h⟩⟩⟩)
    · exact .inl h
    · exact .inr (.inl ⟨h2, h⟩)
    · exact .inr (.inr ⟨h2, ⟨v, hv⟩, h⟩)
    · cases h
  · rintro (h | ⟨h2, h⟩ | ⟨h2, ⟨v, hv⟩, h⟩)
    · exact .inl h
    · exact .inr ⟨(), h2, .inl h⟩
    · exact .inr ⟨(), h2, .inr ⟨v, hv, .inl h⟩⟩

/-! ## Commit -/

variable {m : Mnemonic} {r : Except Stop State}

/-- A next state is the body's own result with the instruction counted, or the fault entry. -/
theorem finish_next : finish m s r = .next t ↔
    (∃ u, r = .ok u ∧ t = u.setSteps (s.steps + 1)) ∨
    (∃ kind, r = .error (.raise kind) ∧ t = s.enterFault kind (some (s.cfg.opcodeMap.byte m))) := by
  rcases r with (kind | f) | u <;> simp [finish, eq_comm]

theorem finish_fault {f : Fault} : finish m s r = .fault f ↔ r = .error (.absent f) := by
  rcases r with (kind | g) | u <;> simp [finish]

theorem finish_refused {f : Refusal} : finish m s r ≠ .refused f := by
  rcases r with (kind | g) | u <;> simp [finish]

end Sys2Proof.Machine
end

