-- ==== Sys2Proof/Laws/Meanings.lean ====
section
/-! SUPPORT. What an instruction can do, said once: if `exec` answers a next state, the instruction completed with the
state listed in `Completed`, or it raised a kind listed in `Raised`. Later proofs split on these two lists and unfold no
meaning. -/

namespace Sys2Proof.Machine

/-- The completed cases, one per instruction and jump outcome. -/
inductive Completed (s : State) : Instr → State → Prop where
  | nop : Completed s .nop { s with pc := s.pc + 1, steps := s.steps + 1 }
  | push (n : Word) (hc : s.sp < s.cfg.cStack) (hl : s.sp < s.st.length) :
      Completed s (.push n)
        { s with st := s.st.set s.sp n, sp := s.sp + 1, pc := s.pc + 5, steps := s.steps + 1 }
  | pop (h : 1 ≤ s.sp) : Completed s .pop { s with sp := s.sp - 1, pc := s.pc + 1, steps := s.steps + 1 }
  | load (r : Nat) (v : Word) (hr : r < s.cfg.cRegs) (hv : s.x[r]? = some v) (hc : s.sp < s.cfg.cStack)
      (hl : s.sp < s.st.length) :
      Completed s (.load r)
        { s with st := s.st.set s.sp v, sp := s.sp + 1, pc := s.pc + 2, steps := s.steps + 1 }
  | store (r : Nat) (v : Word) (hr : r < s.cfg.cRegs) (hx : r < s.x.length) (h : 1 ≤ s.sp)
      (hv : s.st[s.sp - 1]? = some v) :
      Completed s (.store r)
        { s with x := s.x.set r v, sp := s.sp - 1, pc := s.pc + 2, steps := s.steps + 1 }
  | jmp (i : Nat) (hi : i < s.cfg.cProg) : Completed s (.jmp i) { s with pc := i, steps := s.steps + 1 }
  | jzTaken (i : Nat) (h : 1 ≤ s.sp) (hv : s.st[s.sp - 1]? = some 0) (hi : i < s.cfg.cProg) :
      Completed s (.jz i) { s with sp := s.sp - 1, pc := i, steps := s.steps + 1 }
  | jzNot (i : Nat) (v : Word) (h : 1 ≤ s.sp) (hv : s.st[s.sp - 1]? = some v) (h0 : v ≠ 0) :
      Completed s (.jz i) { s with sp := s.sp - 1, pc := s.pc + 3, steps := s.steps + 1 }
  | jnzTaken (i : Nat) (v : Word) (h : 1 ≤ s.sp) (hv : s.st[s.sp - 1]? = some v) (h0 : v ≠ 0) (hi : i < s.cfg.cProg) :
      Completed s (.jnz i) { s with sp := s.sp - 1, pc := i, steps := s.steps + 1 }
  | jnzNot (i : Nat) (h : 1 ≤ s.sp) (hv : s.st[s.sp - 1]? = some 0) :
      Completed s (.jnz i) { s with sp := s.sp - 1, pc := s.pc + 3, steps := s.steps + 1 }
  | add (lhs rhs : Word) (h : 2 ≤ s.sp) (hr : s.st[s.sp - 1]? = some rhs) (hl : s.st[s.sp - 2]? = some lhs) :
      Completed s .add
        { s with st := s.st.set (s.sp - 2) (word (sint lhs + sint rhs)), sp := s.sp - 1, pc := s.pc + 1,
                 steps := s.steps + 1 }
  | sub (lhs rhs : Word) (h : 2 ≤ s.sp) (hr : s.st[s.sp - 1]? = some rhs) (hl : s.st[s.sp - 2]? = some lhs) :
      Completed s .sub
        { s with st := s.st.set (s.sp - 2) (word (sint lhs - sint rhs)), sp := s.sp - 1, pc := s.pc + 1,
                 steps := s.steps + 1 }
  | mul (lhs rhs : Word) (h : 2 ≤ s.sp) (hr : s.st[s.sp - 1]? = some rhs) (hl : s.st[s.sp - 2]? = some lhs) :
      Completed s .mul
        { s with st := s.st.set (s.sp - 2) (word (sint lhs * sint rhs)), sp := s.sp - 1, pc := s.pc + 1,
                 steps := s.steps + 1 }
  | div (lhs rhs : Word) (h : 2 ≤ s.sp) (hr : s.st[s.sp - 1]? = some rhs) (hl : s.st[s.sp - 2]? = some lhs)
      (h0 : rhs ≠ 0) :
      Completed s .div
        { s with st := s.st.set (s.sp - 2) (word (truncDiv (sint lhs) (sint rhs))), sp := s.sp - 1, pc := s.pc + 1,
                 steps := s.steps + 1 }
  | print (v : Word) (h : 1 ≤ s.sp) (hv : s.st[s.sp - 1]? = some v) :
      Completed s .print { s with out := s.out ++ [v], sp := s.sp - 1, pc := s.pc + 1, steps := s.steps + 1 }
  | stop : Completed s .stop { s with status := .stopped, pc := s.pc + 1, steps := s.steps + 1 }

/-- The raised cases, with the condition of each kind. -/
inductive Raised (s : State) : Instr → FaultKind → Prop where
  | push (n : Word) (h : s.cfg.cStack ≤ s.sp) : Raised s (.push n) .stackOverflow
  | pop (h : s.sp = 0) : Raised s .pop .stackUnderflow
  | loadReg (r : Nat) (h : s.cfg.cRegs ≤ r) : Raised s (.load r) .invalidRegister
  | loadFull (r : Nat) (hr : r < s.cfg.cRegs) (h : s.cfg.cStack ≤ s.sp) : Raised s (.load r) .stackOverflow
  | storeReg (r : Nat) (h : s.cfg.cRegs ≤ r) : Raised s (.store r) .invalidRegister
  | storeEmpty (r : Nat) (hr : r < s.cfg.cRegs) (h : s.sp = 0) : Raised s (.store r) .stackUnderflow
  | jmp (i : Nat) (h : s.cfg.cProg ≤ i) : Raised s (.jmp i) .invalidJumpTarget
  | jzEmpty (i : Nat) (h : s.sp = 0) : Raised s (.jz i) .stackUnderflow
  | jzTarget (i : Nat) (h : 1 ≤ s.sp) (hv : s.st[s.sp - 1]? = some 0) (hi : s.cfg.cProg ≤ i) :
      Raised s (.jz i) .invalidJumpTarget
  | jnzEmpty (i : Nat) (h : s.sp = 0) : Raised s (.jnz i) .stackUnderflow
  | jnzTarget (i : Nat) (v : Word) (h : 1 ≤ s.sp) (hv : s.st[s.sp - 1]? = some v) (h0 : v ≠ 0)
      (hi : s.cfg.cProg ≤ i) : Raised s (.jnz i) .invalidJumpTarget
  | add (h : s.sp < 2) : Raised s .add .stackUnderflow
  | sub (h : s.sp < 2) : Raised s .sub .stackUnderflow
  | mul (h : s.sp < 2) : Raised s .mul .stackUnderflow
  | divEmpty (h : s.sp < 2) : Raised s .div .stackUnderflow
  | divZero (h : 2 ≤ s.sp) (hv : s.st[s.sp - 1]? = some 0) : Raised s .div .divideByZero
  | print (h : s.sp = 0) : Raised s .print .stackUnderflow

/-- The fault entry of an instruction that raises `k`: its own opcode byte is recorded. -/
abbrev State.faultOf (s : State) (i : Instr) (k : FaultKind) : State :=
  s.enterFault k (some (s.cfg.opcodeMap.byte i.mnemonic))

variable {s t : State} {i : Instr}

@[simp] theorem takenWhenZero_iff (v : Word) : takenWhenZero v = true ↔ v = 0 := by
  simp [takenWhenZero, uint, ← BitVec.toNat_inj]

@[simp] theorem takenWhenNonzero_iff (v : Word) : takenWhenNonzero v = true ↔ v ≠ 0 := by
  simp [takenWhenNonzero, uint, ← BitVec.toNat_inj]

theorem uint_eq_zero (v : Word) : uint v = 0 ↔ v = 0 := by simp [uint, ← BitVec.toNat_inj]

theorem divWords_ok {lhs rhs v : Word} :
    divWords lhs rhs = .ok v ↔ rhs ≠ 0 ∧ v = word (truncDiv (sint lhs) (sint rhs)) := by
  unfold divWords
  by_cases h : rhs = 0
  · rw [if_pos ((uint_eq_zero rhs).2 h)]; exact ⟨nofun, fun hv => absurd h hv.1⟩
  · rw [if_neg (mt (uint_eq_zero rhs).1 h)]
    exact ⟨fun hv => ⟨h, (Except.ok.inj hv).symm⟩, fun hv => congrArg Except.ok hv.2.symm⟩

theorem divWords_error {lhs rhs : Word} {e : Stop} :
    divWords lhs rhs = .error e ↔ rhs = 0 ∧ e = .raise .divideByZero := by
  unfold divWords
  by_cases h : rhs = 0
  · rw [if_pos ((uint_eq_zero rhs).2 h)]
    exact ⟨fun he => ⟨h, (Except.error.inj he).symm⟩, fun he => congrArg Except.error he.2.symm⟩
  · rw [if_neg (mt (uint_eq_zero rhs).1 h)]; exact ⟨nofun, fun he => absurd he.1 h⟩

/-- The shared body of the four arithmetic instructions. -/
theorem binaryOperation_next {k : Mnemonic} {op : Word → Word → Except Stop Word}
    (hk : k.width = 0) (h : binaryOperation k op s = .next t) :
    (∃ lhs rhs v, 2 ≤ s.sp ∧ s.st[s.sp - 1]? = some rhs ∧ s.st[s.sp - 2]? = some lhs ∧ op lhs rhs = .ok v ∧
      t = { s with st := s.st.set (s.sp - 2) v, sp := s.sp - 1, pc := s.pc + 1, steps := s.steps + 1 }) ∨
    (s.sp < 2 ∧ t = s.enterFault .stackUnderflow (some (s.cfg.opcodeMap.byte k))) ∨
    (∃ lhs rhs kind, 2 ≤ s.sp ∧ s.st[s.sp - 1]? = some rhs ∧ s.st[s.sp - 2]? = some lhs ∧
      op lhs rhs = .error (.raise kind) ∧ t = s.enterFault kind (some (s.cfg.opcodeMap.byte k))) := by
  rw [binaryOperation, finish_next] at h
  rcases h with ⟨u, hu, rfl⟩ | ⟨kind, hk', rfl⟩
  · simp only [bind_ok, stackOperands_ok, push_ok, Prod.exists] at hu
    obtain ⟨lhs, rhs, ⟨h2, hr, hl⟩, v, hv, w, ⟨-, rfl⟩, hu⟩ := hu
    refine .inl ⟨lhs, rhs, v, h2, hr, hl, hv, ?_⟩
    cases hu
    simp only [pop_eq, State.setSp, State.setStack, State.setPc, State.setSteps, nextPc, hk, Nat.sub_sub]
    congr 1; omega
  · simp only [bind_error, stackOperands_error, stackOperands_ok, push_error, push_ok, Prod.exists] at hk'
    rcases hk' with (⟨h2, he⟩ | ⟨_, _, he⟩ | ⟨_, _, _, he⟩) | ⟨lhs, rhs, ⟨h2, hr, hl⟩, he | ⟨v, _, ⟨_, he⟩ | ⟨_, _, he⟩⟩⟩
    · cases he; exact .inr (.inl ⟨h2, rfl⟩)
    · cases he
    · cases he
    · exact .inr (.inr ⟨lhs, rhs, kind, h2, hr, hl, he, rfl⟩)
    · cases he
    · cases he

/-- The shared body of JZ and JNZ. -/
theorem conditionalJump_next {k : Mnemonic} {taken : Word → Bool} {a : Nat}
    (hk : k.width = 2) (h : conditionalJump k taken a s = .next t) :
    (∃ v, 1 ≤ s.sp ∧ s.st[s.sp - 1]? = some v ∧ taken v = true ∧ a < s.cfg.cProg ∧
      t = { s with sp := s.sp - 1, pc := a, steps := s.steps + 1 }) ∨
    (∃ v, 1 ≤ s.sp ∧ s.st[s.sp - 1]? = some v ∧ taken v = false ∧
      t = { s with sp := s.sp - 1, pc := s.pc + 3, steps := s.steps + 1 }) ∨
    (s.sp = 0 ∧ t = s.enterFault .stackUnderflow (some (s.cfg.opcodeMap.byte k))) ∨
    (∃ v, 1 ≤ s.sp ∧ s.st[s.sp - 1]? = some v ∧ taken v = true ∧ s.cfg.cProg ≤ a ∧
      t = s.enterFault .invalidJumpTarget (some (s.cfg.opcodeMap.byte k))) := by
  rw [conditionalJump, finish_next] at h
  rcases h with ⟨u, hu, rfl⟩ | ⟨kind, hk', rfl⟩
  · simp only [bind_ok, topOperand_ok] at hu
    obtain ⟨v, ⟨h1, hv⟩, hu⟩ := hu
    by_cases ht : taken v = true
    · rw [if_pos ht] at hu
      simp only [bind_ok, checkTarget_ok] at hu
      obtain ⟨-, ha, hu⟩ := hu
      cases hu
      exact .inl ⟨v, h1, hv, ht, ha, rfl⟩
    · rw [if_neg ht] at hu
      cases hu
      refine .inr (.inl ⟨v, h1, hv, by simpa using ht, ?_⟩)
      simp [State.setSp, State.setPc, State.setSteps, nextPc, hk]
  · simp only [bind_error, topOperand_ok, topOperand_error] at hk'
    rcases hk' with (⟨h0, he⟩ | ⟨_, _, he⟩) | ⟨v, ⟨h1, hv⟩, he⟩
    · cases he; exact .inr (.inr (.inl ⟨h0, rfl⟩))
    · cases he
    · by_cases ht : taken v = true
      · rw [if_pos ht] at he
        simp only [bind_error, checkTarget_error] at he
        rcases he with ⟨ha, he⟩ | ⟨_, _, he⟩
        · cases he; exact .inr (.inr (.inr ⟨v, h1, hv, ht, ha, rfl⟩))
        · cases he
      · rw [if_neg ht] at he; cases he

/-- What an instruction can do. -/
theorem exec_next (h : exec i s = .next t) : Completed s i t ∨ ∃ k, Raised s i k ∧ t = s.faultOf i k := by
  cases i with
  | nop =>
    rw [exec, execNop] at h
    rcases finish_next.1 h with ⟨u, hu, rfl⟩ | ⟨_, hu, _⟩
    · cases hu; exact .inl .nop
    · cases hu
  | push n =>
    rcases finish_next.1 h with ⟨u, hu, rfl⟩ | ⟨_, hu, rfl⟩
    · simp only [bind_ok, checkPush_ok, push_ok] at hu
      obtain ⟨-, hc, _, ⟨hl, rfl⟩, hu⟩ := hu
      cases hu; exact .inl (.push n (by omega) hl)
    · simp only [bind_error, checkPush_error, push_error] at hu
      rcases hu with ⟨hc, he⟩ | ⟨_, _, ⟨_, he⟩ | ⟨_, _, he⟩⟩ <;> cases he
      exact .inr ⟨_, .push n (by omega), rfl⟩
  | pop =>
    rcases finish_next.1 h with ⟨u, hu, rfl⟩ | ⟨_, hu, rfl⟩
    · simp only [bind_ok, checkPop_ok] at hu
      obtain ⟨-, hc, hu⟩ := hu
      cases hu; exact .inl (.pop hc)
    · simp only [bind_error, checkPop_error] at hu
      rcases hu with ⟨hc, he⟩ | ⟨_, _, he⟩ <;> cases he
      exact .inr ⟨_, .pop (by omega), rfl⟩
  | load r =>
    rcases finish_next.1 h with ⟨u, hu, rfl⟩ | ⟨_, hu, rfl⟩
    · simp only [bind_ok, checkReg_ok, checkPush_ok, readReg_ok, push_ok] at hu
      obtain ⟨-, hr, -, hc, v, hv, _, ⟨hl, rfl⟩, hu⟩ := hu
      cases hu; exact .inl (.load r v hr hv (by omega) hl)
    · simp only [bind_error, checkReg_error, checkReg_ok, checkPush_error, readReg_error, push_error] at hu
      rcases hu with ⟨hc, he⟩ | ⟨_, hr, ⟨hc, he⟩ | ⟨_, _, ⟨_, he⟩ | ⟨_, _, ⟨_, he⟩ | ⟨_, _, he⟩⟩⟩⟩ <;> cases he
      · exact .inr ⟨_, .loadReg r hc, rfl⟩
      · exact .inr ⟨_, .loadFull r hr (by omega), rfl⟩
  | store r =>
    rcases finish_next.1 h with ⟨u, hu, rfl⟩ | ⟨_, hu, rfl⟩
    · simp only [bind_ok, checkReg_ok, topOperand_ok, writeReg_ok] at hu
      obtain ⟨-, hr, v, ⟨h1, hv⟩, _, ⟨hx, rfl⟩, hu⟩ := hu
      cases hu; exact .inl (.store r v hr hx h1 hv)
    · simp only [bind_error, checkReg_error, checkReg_ok, topOperand_error, writeReg_error] at hu
      rcases hu with ⟨hc, he⟩ | ⟨_, hr, (⟨h0, he⟩ | ⟨_, _, he⟩) | ⟨_, _, ⟨_, he⟩ | ⟨_, _, he⟩⟩⟩ <;> cases he
      · exact .inr ⟨_, .storeReg r hc, rfl⟩
      · exact .inr ⟨_, .storeEmpty r hr h0, rfl⟩
  | jmp a =>
    rcases finish_next.1 h with ⟨u, hu, rfl⟩ | ⟨_, hu, rfl⟩
    · simp only [bind_ok, checkTarget_ok] at hu
      obtain ⟨-, hc, hu⟩ := hu
      cases hu; exact .inl (.jmp a hc)
    · simp only [bind_error, checkTarget_error] at hu
      rcases hu with ⟨hc, he⟩ | ⟨_, _, he⟩ <;> cases he
      exact .inr ⟨_, .jmp a hc, rfl⟩
  | jz a =>
    rcases conditionalJump_next rfl h with ⟨v, h1, hv, ht, ha, rfl⟩ | ⟨v, h1, hv, ht, rfl⟩ | ⟨h0, rfl⟩ | ⟨v, h1, hv, ht, ha, rfl⟩
    · exact .inl (.jzTaken a h1 (by rw [takenWhenZero_iff] at ht; rwa [← ht]) ha)
    · exact .inl (.jzNot a v h1 hv (by rintro rfl; simp [takenWhenZero, uint] at ht))
    · exact .inr ⟨_, .jzEmpty a h0, rfl⟩
    · exact .inr ⟨_, .jzTarget a h1 (by rw [takenWhenZero_iff] at ht; rwa [← ht]) ha, rfl⟩
  | jnz a =>
    rcases conditionalJump_next rfl h with ⟨v, h1, hv, ht, ha, rfl⟩ | ⟨v, h1, hv, ht, rfl⟩ | ⟨h0, rfl⟩ | ⟨v, h1, hv, ht, ha, rfl⟩
    · exact .inl (.jnzTaken a v h1 hv (by simpa using ht) ha)
    · refine .inl (.jnzNot a h1 ?_)
      have : v = 0 := by
        by_contra h0
        rw [(takenWhenNonzero_iff v).2 h0] at ht
        cases ht
      rw [← this]; exact hv
    · exact .inr ⟨_, .jnzEmpty a h0, rfl⟩
    · exact .inr ⟨_, .jnzTarget a v h1 hv (by simpa using ht) ha, rfl⟩
  | add =>
    rcases binaryOperation_next rfl h with ⟨l, r, v, h2, hr, hl, hv, rfl⟩ | ⟨h2, rfl⟩ | ⟨_, _, _, _, _, _, he, _⟩
    · cases hv; exact .inl (.add l r h2 hr hl)
    · exact .inr ⟨_, .add h2, rfl⟩
    · cases he
  | sub =>
    rcases binaryOperation_next rfl h with ⟨l, r, v, h2, hr, hl, hv, rfl⟩ | ⟨h2, rfl⟩ | ⟨_, _, _, _, _, _, he, _⟩
    · cases hv; exact .inl (.sub l r h2 hr hl)
    · exact .inr ⟨_, .sub h2, rfl⟩
    · cases he
  | mul =>
    rcases binaryOperation_next rfl h with ⟨l, r, v, h2, hr, hl, hv, rfl⟩ | ⟨h2, rfl⟩ | ⟨_, _, _, _, _, _, he, _⟩
    · cases hv; exact .inl (.mul l r h2 hr hl)
    · exact .inr ⟨_, .mul h2, rfl⟩
    · cases he
  | div =>
    rcases binaryOperation_next rfl h with ⟨l, r, v, h2, hr, hl, hv, rfl⟩ | ⟨h2, rfl⟩ | ⟨l, r, kind, h2, hr, hl, he, rfl⟩
    · obtain ⟨h0, rfl⟩ := divWords_ok.1 hv; exact .inl (.div l r h2 hr hl h0)
    · exact .inr ⟨_, .divEmpty h2, rfl⟩
    · obtain ⟨rfl, h0⟩ := divWords_error.1 he; cases h0; exact .inr ⟨_, .divZero h2 hr, rfl⟩
  | print =>
    rcases finish_next.1 h with ⟨u, hu, rfl⟩ | ⟨_, hu, rfl⟩
    · simp only [bind_ok, topOperand_ok] at hu
      obtain ⟨v, ⟨h1, hv⟩, hu⟩ := hu
      cases hu; exact .inl (.print v h1 hv)
    · simp only [bind_error, topOperand_error] at hu
      rcases hu with (⟨h0, he⟩ | ⟨_, _, he⟩) | ⟨_, _, he⟩ <;> cases he
      exact .inr ⟨_, .print h0, rfl⟩
  | stop =>
    rw [exec, execStop] at h
    rcases finish_next.1 h with ⟨u, hu, rfl⟩ | ⟨_, hu, _⟩
    · cases hu; exact .inl .stop
    · cases hu

/-- No instruction is refused. -/
theorem exec_not_refused {r : Refusal} : exec i s ≠ .refused r := by
  cases i with
  | nop => rw [exec, execNop]; exact finish_refused
  | stop => rw [exec, execStop]; exact finish_refused
  | _ => exact finish_refused

/-- A step that answers a next state raised in its front, or executed the instruction it fetched. -/
theorem step_next (h : step s = .next t) :
    s.status = .running ∧
    ((∃ k op, fetch s = .raised k op ∧ t = s.enterFault k op) ∨
     (∃ i, fetch s = .instr i ∧ exec i s = .next t)) := by
  unfold step at h
  cases hs : s.status <;> rw [hs] at h <;> simp only [reduceCtorEq] at h
  refine ⟨rfl, ?_⟩
  cases hf : fetch s <;> rw [hf] at h <;> simp only [reduceCtorEq] at h
  · exact .inr ⟨_, rfl, h⟩
  · cases h; exact .inl ⟨_, _, rfl, rfl⟩

end Sys2Proof.Machine
end

