-- ==== Sys2Proof/Laws/Forward.lean ====
section
/-! SUPPORT. The other direction of `exec_next`: every listed case happens, and in a state that meets the invariant one of
them does. With `exec_next` this is the whole of `exec`. -/

namespace Sys2Proof.Machine

variable {s t : State} {i : Instr} {k : FaultKind}

/-! ## The invariant's parts -/

theorem State.Inv.st_length (h : s.Inv) : s.st.length = s.cfg.cStack := h.2.1.1
theorem State.Inv.x_length (h : s.Inv) : s.x.length = s.cfg.cRegs := h.2.1.2
theorem State.Inv.sp_le (h : s.Inv) : s.sp ≤ s.cfg.cStack := h.2.2.1.1
theorem State.Inv.progLen_le (h : s.Inv) : s.progLen ≤ s.cfg.cProg := h.2.2.1.2.1
theorem State.Inv.pc_le (h : s.Inv) : s.pc ≤ s.cfg.cProg := h.2.2.1.2.2
theorem State.Inv.fault_clear (h : s.Inv) (hs : s.status ≠ .faulted) : s.fault = FaultRecord.clear := h.2.2.2.2.1.2 hs

/-- A live stack cell exists. -/
theorem State.Inv.cell (h : s.Inv) {j : Nat} (hj : j < s.sp) : ∃ v, s.st[j]? = some v := by
  have := h.st_length; have := h.sp_le
  exact ⟨_, List.getElem?_eq_getElem (by omega)⟩

/-- A register of the bank exists. -/
theorem State.Inv.reg (h : s.Inv) {r : Nat} (hr : r < s.cfg.cRegs) : ∃ v, s.x[r]? = some v :=
  ⟨_, List.getElem?_eq_getElem (by rw [h.x_length]; exact hr)⟩

/-! ## Every listed case happens -/

theorem binaryOperation_completes {m : Mnemonic} {op : Word → Word → Except Stop Word} {lhs rhs v : Word}
    (hm : m.width = 0) (h : 2 ≤ s.sp) (hr : s.st[s.sp - 1]? = some rhs) (hl : s.st[s.sp - 2]? = some lhs)
    (hv : op lhs rhs = .ok v) :
    binaryOperation m op s =
      .next { s with st := s.st.set (s.sp - 2) v, sp := s.sp - 1, pc := s.pc + 1, steps := s.steps + 1 } := by
  have hlt : s.sp - 2 < s.st.length := (List.getElem?_eq_some_iff.1 hl).1
  have hp : push v (pop (pop s)) =
      .ok (((pop (pop s)).setStack (s.st.set (s.sp - 2) v)).setSp (s.sp - 2 + 1)) := by
    rw [push_ok]; exact ⟨by simpa [Nat.sub_sub] using hlt, by simp [Nat.sub_sub]⟩
  rw [binaryOperation, stackOperands_ok.2 ⟨h, hr, hl⟩]
  simp only [Except.ok_bind, hv, hp, finish, nextPc, hm]
  simp only [pop_eq, State.setSp, State.setStack, State.setPc, State.setSteps]
  congr 2; omega

theorem conditionalJump_taken {m : Mnemonic} {taken : Word → Bool} {v : Word} {a : Nat} (h : 1 ≤ s.sp)
    (hv : s.st[s.sp - 1]? = some v) (ht : taken v = true) (ha : a < s.cfg.cProg) :
    conditionalJump m taken a s = .next { s with sp := s.sp - 1, pc := a, steps := s.steps + 1 } := by
  rw [conditionalJump, topOperand_ok.2 ⟨h, hv⟩]
  simp only [Except.ok_bind, ht, if_true, checkTarget_ok (u := ()).2 ha]
  rfl

theorem conditionalJump_not {m : Mnemonic} {taken : Word → Bool} {v : Word} {a : Nat} (hm : m.width = 2)
    (h : 1 ≤ s.sp) (hv : s.st[s.sp - 1]? = some v) (ht : taken v = false) :
    conditionalJump m taken a s = .next { s with sp := s.sp - 1, pc := s.pc + 3, steps := s.steps + 1 } := by
  rw [conditionalJump, topOperand_ok.2 ⟨h, hv⟩]
  simp only [Except.ok_bind, ht, Bool.false_eq_true, if_false, finish, nextPc, hm]
  rfl

/-- Every completed case is what `exec` answers. -/
theorem exec_of_completed (h : Completed s i t) : exec i s = .next t := by
  cases h with
  | nop => rfl
  | stop => rfl
  | push n hc hl =>
    have hp := (push_ok (v := n)).2 ⟨hl, rfl⟩
    rw [exec, execPush, checkPush_ok (u := ()).2 (by omega)]
    simp only [Except.ok_bind, hp]; rfl
  | pop h => rw [exec, execPop, checkPop_ok (u := ()).2 h]; rfl
  | load r v hr hv hc hl =>
    have hp := (push_ok (v := v)).2 ⟨hl, rfl⟩
    rw [exec, execLoad, checkReg_ok (u := ()).2 hr, checkPush_ok (u := ()).2 (by omega), readReg_ok.2 hv]
    simp only [Except.ok_bind, hp]; rfl
  | store r v hr hx h hv =>
    rw [exec, execStore, checkReg_ok (u := ()).2 hr, topOperand_ok.2 ⟨h, hv⟩]
    simp only [Except.ok_bind, writeReg_ok.2 ⟨show r < (pop s).x.length from hx, rfl⟩]; rfl
  | jmp a ha => rw [exec, execJmp, checkTarget_ok (u := ()).2 ha]; rfl
  | jzTaken a h hv ha => exact conditionalJump_taken h hv ((takenWhenZero_iff 0).2 rfl) ha
  | jzNot a v h hv h0 =>
    exact conditionalJump_not rfl h hv (Bool.eq_false_iff.2 fun ht => h0 ((takenWhenZero_iff v).1 ht))
  | jnzTaken a v h hv h0 ha => exact conditionalJump_taken h hv ((takenWhenNonzero_iff v).2 h0) ha
  | jnzNot a h hv =>
    exact conditionalJump_not rfl h hv (Bool.eq_false_iff.2 fun ht => (takenWhenNonzero_iff 0).1 ht rfl)
  | add l r h hr hl => exact binaryOperation_completes rfl h hr hl rfl
  | sub l r h hr hl => exact binaryOperation_completes rfl h hr hl rfl
  | mul l r h hr hl => exact binaryOperation_completes rfl h hr hl rfl
  | div l r h hr hl h0 => exact binaryOperation_completes rfl h hr hl (divWords_ok.2 ⟨h0, rfl⟩)
  | print v h hv => rw [exec, execPrint, topOperand_ok.2 ⟨h, hv⟩]; rfl

/-- Every raised case is what `exec` answers. -/
theorem exec_of_raised (h : Raised s i k) : exec i s = .next (s.faultOf i k) := by
  have under (h0 : s.sp = 0) : topOperand s = .error (.raise .stackUnderflow) := topOperand_error.2 (.inl ⟨h0, rfl⟩)
  have under2 (h0 : s.sp < 2) : stackOperands s = .error (.raise .stackUnderflow) :=
    stackOperands_error.2 (.inl ⟨h0, rfl⟩)
  cases h with
  | push n h => rw [exec, execPush, checkPush_error.2 ⟨by omega, rfl⟩]; rfl
  | pop h => rw [exec, execPop, checkPop_error.2 ⟨by omega, rfl⟩]; rfl
  | loadReg r h => rw [exec, execLoad, checkReg_error.2 ⟨h, rfl⟩]; rfl
  | loadFull r hr h =>
    rw [exec, execLoad, checkReg_ok (u := ()).2 hr, checkPush_error.2 ⟨by omega, rfl⟩]; rfl
  | storeReg r h => rw [exec, execStore, checkReg_error.2 ⟨h, rfl⟩]; rfl
  | storeEmpty r hr h => rw [exec, execStore, checkReg_ok (u := ()).2 hr, under h]; rfl
  | jmp a h => rw [exec, execJmp, checkTarget_error.2 ⟨h, rfl⟩]; rfl
  | jzEmpty a h => rw [exec, execJz, conditionalJump, under h]; rfl
  | jzTarget a h hv ha =>
    rw [exec, execJz, conditionalJump, topOperand_ok.2 ⟨h, hv⟩]
    simp only [Except.ok_bind, (takenWhenZero_iff 0).2 rfl, if_true, checkTarget_error.2 ⟨ha, rfl⟩]; rfl
  | jnzEmpty a h => rw [exec, execJnz, conditionalJump, under h]; rfl
  | jnzTarget a v h hv h0 ha =>
    rw [exec, execJnz, conditionalJump, topOperand_ok.2 ⟨h, hv⟩]
    simp only [Except.ok_bind, (takenWhenNonzero_iff v).2 h0, if_true, checkTarget_error.2 ⟨ha, rfl⟩]; rfl
  | add h => rw [exec, execAdd, binaryOperation, under2 h]; rfl
  | sub h => rw [exec, execSub, binaryOperation, under2 h]; rfl
  | mul h => rw [exec, execMul, binaryOperation, under2 h]; rfl
  | divEmpty h => rw [exec, execDiv, binaryOperation, under2 h]; rfl
  | divZero h hv =>
    obtain ⟨l, hl⟩ | hl : (∃ l, s.st[s.sp - 2]? = some l) ∨ s.st[s.sp - 2]? = none := by
      cases s.st[s.sp - 2]? <;> simp
    · rw [exec, execDiv, binaryOperation, stackOperands_ok.2 ⟨h, hv, hl⟩]; rfl
    · have h1 := (List.getElem?_eq_some_iff.1 hv).1
      have h2 := List.getElem?_eq_none_iff.1 hl
      omega
  | print h => rw [exec, execPrint, under h]; rfl

/-- In a state that meets the invariant every instruction completes or raises. -/
theorem exec_total (hs : s.Inv) (i : Instr) : (∃ t, Completed s i t) ∨ ∃ k, Raised s i k := by
  have hl := hs.st_length
  have one (h : 1 ≤ s.sp) : ∃ v, s.st[s.sp - 1]? = some v := hs.cell (by omega)
  have two (h : 2 ≤ s.sp) : ∃ v, s.st[s.sp - 2]? = some v := hs.cell (by omega)
  cases i with
  | nop => exact .inl ⟨_, .nop⟩
  | stop => exact .inl ⟨_, .stop⟩
  | push n =>
    by_cases h : s.sp < s.cfg.cStack
    · exact .inl ⟨_, .push n h (by omega)⟩
    · exact .inr ⟨_, .push n (by omega)⟩
  | pop =>
    by_cases h : 1 ≤ s.sp
    · exact .inl ⟨_, .pop h⟩
    · exact .inr ⟨_, .pop (by omega)⟩
  | load r =>
    by_cases hr : r < s.cfg.cRegs
    · obtain ⟨v, hv⟩ := hs.reg hr
      by_cases h : s.sp < s.cfg.cStack
      · exact .inl ⟨_, .load r v hr hv h (by omega)⟩
      · exact .inr ⟨_, .loadFull r hr (by omega)⟩
    · exact .inr ⟨_, .loadReg r (by omega)⟩
  | store r =>
    by_cases hr : r < s.cfg.cRegs
    · by_cases h : 1 ≤ s.sp
      · obtain ⟨v, hv⟩ := one h
        exact .inl ⟨_, .store r v hr (by rw [hs.x_length]; exact hr) h hv⟩
      · exact .inr ⟨_, .storeEmpty r hr (by omega)⟩
    · exact .inr ⟨_, .storeReg r (by omega)⟩
  | jmp a =>
    by_cases h : a < s.cfg.cProg
    · exact .inl ⟨_, .jmp a h⟩
    · exact .inr ⟨_, .jmp a (by omega)⟩
  | jz a =>
    by_cases h : 1 ≤ s.sp
    · obtain ⟨v, hv⟩ := one h
      by_cases h0 : v = 0
      · subst h0
        by_cases ha : a < s.cfg.cProg
        · exact .inl ⟨_, .jzTaken a h hv ha⟩
        · exact .inr ⟨_, .jzTarget a h hv (by omega)⟩
      · exact .inl ⟨_, .jzNot a v h hv h0⟩
    · exact .inr ⟨_, .jzEmpty a (by omega)⟩
  | jnz a =>
    by_cases h : 1 ≤ s.sp
    · obtain ⟨v, hv⟩ := one h
      by_cases h0 : v = 0
      · subst h0; exact .inl ⟨_, .jnzNot a h hv⟩
      · by_cases ha : a < s.cfg.cProg
        · exact .inl ⟨_, .jnzTaken a v h hv h0 ha⟩
        · exact .inr ⟨_, .jnzTarget a v h hv h0 (by omega)⟩
    · exact .inr ⟨_, .jnzEmpty a (by omega)⟩
  | print =>
    by_cases h : 1 ≤ s.sp
    · obtain ⟨v, hv⟩ := one h
      exact .inl ⟨_, .print v h hv⟩
    · exact .inr ⟨_, .print (by omega)⟩
  | add =>
    by_cases h : 2 ≤ s.sp
    · obtain ⟨r, hr⟩ := one (by omega); obtain ⟨l, hl⟩ := two h
      exact .inl ⟨_, .add l r h hr hl⟩
    · exact .inr ⟨_, .add (by omega)⟩
  | sub =>
    by_cases h : 2 ≤ s.sp
    · obtain ⟨r, hr⟩ := one (by omega); obtain ⟨l, hl⟩ := two h
      exact .inl ⟨_, .sub l r h hr hl⟩
    · exact .inr ⟨_, .sub (by omega)⟩
  | mul =>
    by_cases h : 2 ≤ s.sp
    · obtain ⟨r, hr⟩ := one (by omega); obtain ⟨l, hl⟩ := two h
      exact .inl ⟨_, .mul l r h hr hl⟩
    · exact .inr ⟨_, .mul (by omega)⟩
  | div =>
    by_cases h : 2 ≤ s.sp
    · obtain ⟨r, hr⟩ := one (by omega); obtain ⟨l, hl⟩ := two h
      by_cases h0 : r = 0
      · subst h0; exact .inr ⟨_, .divZero h hr⟩
      · exact .inl ⟨_, .div l r h hr hl h0⟩
    · exact .inr ⟨_, .divEmpty (by omega)⟩

end Sys2Proof.Machine
end

