-- ==== Sys2Proof/Laws/Memory.lean ====
section
/-! SUPPORT. The laws of the program store: read after write, and every operation keeps the canonical form. -/

namespace Sys2Proof.Machine

@[simp] theorem Memory.read_nil (a : Nat) : Memory.read [] a = Memory.unlisted := rfl

theorem Memory.write_cons (c : Host.Cell) (m : Memory) (a : Nat) (v : Byte) :
    Memory.write (c :: m) a v =
      if a < c.1 then Memory.put a v (c :: m) else if a = c.1 then Memory.put a v m else c :: Memory.write m a v := rfl

theorem Memory.read_cons (c : Host.Cell) (m : Memory) (a : Nat) :
    Memory.read (c :: m) a = if c.1 = a then c.2 else Memory.read m a := rfl

/-- An address no entry lists reads as unlisted. -/
theorem Memory.read_of_not_listed {m : Memory} {a : Nat} (h : ∀ c ∈ m, c.1 ≠ a) :
    Memory.read m a = Memory.unlisted := by
  induction m with
  | nil => rfl
  | cons c m ih =>
    rw [Memory.read_cons, if_neg (h c (by simp)), ih (fun d hd => h d (by simp [hd]))]

theorem Memory.read_put {a b : Nat} {v : Byte} {m : Memory} (h : ∀ c ∈ m, c.1 ≠ a) :
    Memory.read (Memory.put a v m) b = if b = a then v else Memory.read m b := by
  unfold Memory.put
  by_cases hv : v = Memory.unlisted
  · by_cases hb : b = a
    · subst hb; simp [hv, Memory.read_of_not_listed h]
    · simp [hv, hb]
  · simp [hv, Memory.read_cons, eq_comm]

/-- Read after write. -/
theorem Memory.read_write {m : Memory} (hm : Memory.Wf m) (a b : Nat) (v : Byte) :
    Memory.read (Memory.write m a v) b = if b = a then v else Memory.read m b := by
  induction m with
  | nil => simpa [Memory.write] using Memory.read_put (b := b) (v := v) (a := a) (m := []) (by simp)
  | cons c m ih =>
    obtain ⟨hp, hn⟩ := hm
    rw [List.pairwise_cons] at hp
    have hm' : Memory.Wf m := ⟨hp.2, fun d hd => hn d (by simp [hd])⟩
    have hgt : ∀ d ∈ m, c.1 < d.1 := hp.1
    rw [Memory.write_cons]
    by_cases h1 : a < c.1
    · rw [if_pos h1]
      refine Memory.read_put fun d hd => ?_
      rcases List.mem_cons.1 hd with rfl | hd
      · omega
      · have := hgt d hd; omega
    by_cases h2 : a = c.1
    · rw [if_neg h1, if_pos h2, Memory.read_put (fun d hd => by have := hgt d hd; omega), Memory.read_cons]
      by_cases hb : b = a
      · rw [if_pos hb, if_pos hb]
      · rw [if_neg hb, if_neg hb, if_neg (by omega)]
    · rw [if_neg h1, if_neg h2, Memory.read_cons, ih hm', Memory.read_cons]
      by_cases hb : c.1 = b
      · rw [if_pos hb, if_pos hb, if_neg (by omega)]
      · rw [if_neg hb, if_neg hb]

theorem Memory.mem_put {m : Memory} {a : Nat} {v : Byte} {c : Host.Cell} (h : c ∈ Memory.put a v m) :
    (c = (a, v) ∧ v ≠ Memory.unlisted) ∨ c ∈ m := by
  unfold Memory.put at h
  by_cases hv : v = Memory.unlisted
  · rw [if_pos hv] at h; exact .inr h
  · rw [if_neg hv] at h
    exact (List.mem_cons.1 h).imp (fun h => ⟨h, hv⟩) id

/-- The entries of a write are the one written, unless its byte reads as unlisted, and old ones. -/
theorem Memory.mem_write {m : Memory} {a : Nat} {v : Byte} {c : Host.Cell} (h : c ∈ Memory.write m a v) :
    (c = (a, v) ∧ v ≠ Memory.unlisted) ∨ c ∈ m := by
  induction m with
  | nil => exact Memory.mem_put h
  | cons d m ih =>
    rw [Memory.write_cons] at h
    by_cases h1 : a < d.1
    · rw [if_pos h1] at h; exact Memory.mem_put h
    by_cases h2 : a = d.1
    · rw [if_neg h1, if_pos h2] at h
      exact (Memory.mem_put h).imp id (List.mem_cons_of_mem d)
    · rw [if_neg h1, if_neg h2] at h
      rcases List.mem_cons.1 h with rfl | h
      · exact .inr (List.mem_cons_self ..)
      · exact (ih h).imp id (List.mem_cons_of_mem d)

/-- Putting an entry in front of higher ones keeps them rising. -/
theorem Memory.put_rising {m : Memory} {a : Nat} {v : Byte} (hp : m.Pairwise (fun c d => c.1 < d.1))
    (h : ∀ c ∈ m, a < c.1) : (Memory.put a v m).Pairwise (fun c d => c.1 < d.1) := by
  unfold Memory.put
  by_cases hv : v = Memory.unlisted
  · rw [if_pos hv]; exact hp
  · rw [if_neg hv]; exact List.pairwise_cons.2 ⟨h, hp⟩

/-- A write keeps the canonical form. -/
theorem Memory.write_wf {m : Memory} (hm : Memory.Wf m) (a : Nat) (v : Byte) : Memory.Wf (Memory.write m a v) := by
  refine ⟨?_, fun c hc => ?_⟩
  · obtain ⟨hp, -⟩ := hm
    induction m with
    | nil => exact Memory.put_rising hp (by simp)
    | cons d m ih =>
      obtain ⟨hd, hp'⟩ := List.pairwise_cons.1 hp
      rw [Memory.write_cons]
      by_cases h1 : a < d.1
      · rw [if_pos h1]
        refine Memory.put_rising hp fun c hc => ?_
        rcases List.mem_cons.1 hc with rfl | hc
        · exact h1
        · exact lt_trans h1 (hd c hc)
      by_cases h2 : a = d.1
      · rw [if_neg h1, if_pos h2]
        exact Memory.put_rising hp' fun c hc => by rw [h2]; exact hd c hc
      · rw [if_neg h1, if_neg h2]
        refine List.pairwise_cons.2 ⟨fun c hc => ?_, ih hp'⟩
        rcases Memory.mem_write hc with ⟨rfl, -⟩ | hc
        · change d.1 < a; omega
        · exact hd c hc
  · rcases Memory.mem_write hc with ⟨rfl, hv⟩ | hc
    · exact hv
    · exact hm.2 c hc

theorem Memory.writeBytes_wf {m : Memory} (hm : Memory.Wf m) (a : Nat) (bs : List Byte) :
    Memory.Wf (Memory.writeBytes m a bs) := by
  induction bs generalizing m a with
  | nil => exact hm
  | cons b bs ih => exact ih (Memory.write_wf hm a b) (a + 1)

/-- What a run of byte writes leaves at every address. -/
theorem Memory.read_writeBytes {m : Memory} (hm : Memory.Wf m) (a b : Nat) (bs : List Byte) :
    Memory.read (Memory.writeBytes m a bs) b =
      if a ≤ b ∧ b < a + bs.length then bs.getD (b - a) 0 else Memory.read m b := by
  induction bs generalizing m a with
  | nil => simp [Memory.writeBytes]
  | cons v bs ih =>
    rw [Memory.writeBytes, ih (Memory.write_wf hm a v), Memory.read_write hm]
    by_cases h1 : b = a
    · subst h1; simp
    · by_cases h2 : a ≤ b ∧ b < a + (v :: bs).length
      · have h3 : a + 1 ≤ b ∧ b < a + 1 + bs.length := by simp at h2; omega
        have h4 : b - a = (b - (a + 1)) + 1 := by omega
        rw [if_pos h3, if_pos h2, h4, List.getD_cons_succ]
      · have h3 : ¬(a + 1 ≤ b ∧ b < a + 1 + bs.length) := by simp at h2 ⊢; omega
        rw [if_neg h3, if_neg h2, if_neg h1]

/-- Addresses listed after a run of byte writes. -/
theorem Memory.mem_writeBytes {m : Memory} {a : Nat} {bs : List Byte} {c : Host.Cell}
    (h : c ∈ Memory.writeBytes m a bs) : c ∈ m ∨ (a ≤ c.1 ∧ c.1 < a + bs.length) := by
  induction bs generalizing m a with
  | nil => exact .inl h
  | cons v bs ih =>
    rcases ih h with h | h
    · rcases Memory.mem_write h with ⟨rfl, -⟩ | h
      · exact .inr (by simp)
      · exact .inl h
    · exact .inr (by simp; omega)

theorem Memory.reset_wf (c : Config) : Memory.Wf (State.resetWith c).prog :=
  ⟨List.Pairwise.nil, fun _ h => absurd h (List.not_mem_nil)⟩

/-! ## Reads through the state -/

theorem State.readByte_ok {s : State} {a : Nat} (h : a < s.cfg.cProg) :
    s.readByte a = .ok (Memory.read s.prog a) := by simp [State.readByte, h]

/-- Reading inside the store answers the bytes, whatever their number. -/
theorem State.readBytes_ok {s : State} {a n : Nat} (h : a + n ≤ s.cfg.cProg) :
    s.readBytes a n = .ok ((List.range n).map (fun k => Memory.read s.prog (a + k))) := by
  induction n generalizing a with
  | zero => rfl
  | succ n ih =>
    rw [State.readBytes, State.readByte_ok (by omega), ih (by omega), List.range_succ_eq_map]
    simp [Function.comp_def, Nat.add_comm, Nat.add_left_comm]

end Sys2Proof.Machine
end

