-- ==== Sys2Proof/Laws/PerInstr.lean ====
section
/-! SUPPORT. The family EncodedLength: an instruction's encoding has the length its format gives it (R70, R71), under every
opcode map. -/

namespace Sys2Proof.Laws.EncodedLength

/-- The encoding of `i` has `i.length` bytes. -/
def Statement (i : Instr) : Prop := ∀ m : OpcodeMap, (encode m i).length = i.length

theorem of_leBytes (i : Instr) : Statement i := fun m => by
  simp [encode, Instr.length, Nat.add_comm]

theorem nop : Statement .nop := of_leBytes _
theorem push (n : Word) : Statement (.push n) := of_leBytes _
theorem pop : Statement .pop := of_leBytes _
theorem load (r : Nat) : Statement (.load r) := of_leBytes _
theorem store (r : Nat) : Statement (.store r) := of_leBytes _
theorem jmp (i : Nat) : Statement (.jmp i) := of_leBytes _
theorem jz (i : Nat) : Statement (.jz i) := of_leBytes _
theorem jnz (i : Nat) : Statement (.jnz i) := of_leBytes _
theorem add : Statement .add := of_leBytes _
theorem sub : Statement .sub := of_leBytes _
theorem mul : Statement .mul := of_leBytes _
theorem div : Statement .div := of_leBytes _
theorem print : Statement .print := of_leBytes _
theorem stop : Statement .stop := of_leBytes _

end Sys2Proof.Laws.EncodedLength
end

