-- ==== Sys2Proof/Laws/Step.lean ====
section
/-! SUPPORT. The front of a step in a store whose loaded part exists: the bytes the decoder is given, and `step` and `fetch`
as one equation each. -/

namespace Sys2Proof.Machine

variable {s : State}

/-- The loaded bytes from the pc on, at most five. -/
def fetchWindow (s : State) : List Byte :=
  (List.range (min maxInstrLength (s.progLen - s.pc))).map (fun k => Memory.read s.prog (s.pc + k))

theorem fetchBytes_eq (hs : s.progLen ≤ s.cfg.cProg) : fetchBytes s = .ok (fetchWindow s) := by
  unfold fetchBytes fetchWindow
  by_cases h : s.pc ≤ s.progLen
  · exact State.readBytes_ok (by omega)
  · have : s.progLen - s.pc = 0 := by omega
    simp [this, State.readBytes]

@[simp] theorem fetchWindow_length : (fetchWindow s).length = min maxInstrLength (s.progLen - s.pc) := by
  simp [fetchWindow]

theorem fetchWindow_empty (h : s.progLen ≤ s.pc) : fetchWindow s = [] := by
  simp [fetchWindow, Nat.sub_eq_zero_of_le h]

theorem fetchWindow_cons (h : s.pc < s.progLen) :
    fetchWindow s = Memory.read s.prog s.pc ::
      (List.range (min 4 (s.progLen - s.pc - 1))).map (fun k => Memory.read s.prog (s.pc + 1 + k)) := by
  have : min maxInstrLength (s.progLen - s.pc) = min 4 (s.progLen - s.pc - 1) + 1 := by
    simp only [maxInstrLength]; omega
  rw [fetchWindow, this, List.range_succ_eq_map]
  simp [Function.comp_def, Nat.add_comm, Nat.add_left_comm]

theorem step_raised {k : FaultKind} {op : Option Byte} (hr : s.status = .running) (h : fetch s = .raised k op) :
    step s = .next (s.enterFault k op) := by
  unfold step; rw [hr, h]

theorem step_instr {i : Instr} (hr : s.status = .running) (h : fetch s = .instr i) : step s = exec i s := by
  unfold step; rw [hr, h]

theorem fetch_budget (hb : budgetUsedUp s = true) : fetch s = .raised .stepBudgetExceeded none := by
  unfold fetch; rw [if_pos hb]

theorem fetch_rejected {e : DecodeError} (hb : budgetUsedUp s = false) (hs : s.progLen ≤ s.cfg.cProg)
    (h : decode s.cfg.opcodeMap (fetchWindow s) = .error e) : fetch s = rejected e := by
  unfold fetch; rw [if_neg (by simp [hb]), fetchBytes_eq hs]; simp only [h]

theorem fetch_decoded {i : Instr} {rest : List Byte} (hb : budgetUsedUp s = false) (hs : s.progLen ≤ s.cfg.cProg)
    (h : decode s.cfg.opcodeMap (fetchWindow s) = .ok (i, rest)) : fetch s = .instr i := by
  unfold fetch; rw [if_neg (by simp [hb]), fetchBytes_eq hs]; simp only [h]

/-- The three ways a fetch ends. -/
theorem fetch_cases (hs : s.progLen ≤ s.cfg.cProg) :
    (budgetUsedUp s = true ∧ fetch s = .raised .stepBudgetExceeded none) ∨
    (budgetUsedUp s = false ∧ ∃ e, decode s.cfg.opcodeMap (fetchWindow s) = .error e ∧ fetch s = rejected e) ∨
    (budgetUsedUp s = false ∧ ∃ i rest, decode s.cfg.opcodeMap (fetchWindow s) = .ok (i, rest) ∧ fetch s = .instr i) := by
  cases hb : budgetUsedUp s with
  | true => exact .inl ⟨rfl, fetch_budget hb⟩
  | false =>
    cases hd : decode s.cfg.opcodeMap (fetchWindow s) with
    | error e => exact .inr (.inl ⟨rfl, e, rfl, fetch_rejected hb hs hd⟩)
    | ok p => exact .inr (.inr ⟨rfl, p.1, p.2, rfl, fetch_decoded hb hs hd⟩)

end Sys2Proof.Machine
end

