-- ==== Sys2Proof/Tests/Slice0.lean ====
section
/-! SUPPORT. Tests and witnesses. Every expected result comes from spec/95_test_vectors.md (the vector is named), from
30_encoding.md, or is worked out by hand from the rule named; none is the model's own answer. The configuration is TC.
A `witness_…` theorem shows that the hypotheses of the obligation it is named after can be met, clause by clause, at the
ends of the ranges; where it says so, the conclusion is evaluated too. -/

namespace Sys2Proof.Tests

open Sys2Proof Sys2Proof.Machine

/-! ## Helpers -/

/-- The next state, if there is one. -/
def nextState? : Result → Option State
  | .next t => some t
  | _ => none

/-- A RUNNING core under TC: program bytes at 0, live stack elements bottom to top, registers. -/
def running (bytes : List Byte) (stack : List Word) (regs : List Word := [0, 0, 0, 0]) : State :=
  { State.reset with
    status := .running
    prog := Memory.writeBytes [] 0 bytes
    progLen := bytes.length
    st := stack ++ List.replicate (4 - stack.length) 0
    sp := stack.length
    x := regs }

/-- The same core with a step budget. -/
def State.budget (s : State) (b : Nat) : State := { s with cfg := { s.cfg with stepBudget := some b } }

/-- A core stopped by a fault: POP on an empty stack (L1-7). -/
def faulted : State := { running [0x02] [] with status := .faulted, fault := ⟨some .stackUnderflow, true, 0x02, 0⟩ }

/-- The live stack and the pc after one step. -/
def stackAndPc (s : State) : Option (List Word × Nat) :=
  (nextState? (step s)).map fun t => (t.st.take t.sp, t.pc)

/-- The FAULT word (R35), the pc and the live stack after one step. -/
def faultAndStack (s : State) : Option (Nat × Nat × List Word) :=
  (nextState? (step s)).map fun t => (t.fault.faultWord, t.pc, t.st.take t.sp)

/-- The next state's status, FAULT word, FAULT_PC and `steps`. -/
def haltOf (s : State) : Option (Status × Nat × Nat × Nat) :=
  (nextState? (step s)).map fun t => (t.status, t.fault.faultWord, t.fault.faultPc, t.steps)

/-- An injective map that is not the default one: the default bytes in reverse. -/
def reversedMap : OpcodeMap := ⟨0xFF, 0xFE, 0xFD, 0xFC, 0xFB, 0xFA, 0xF9, 0xF8, 0xF7, 0xF6, 0xF5, 0xF4, 0xF3, 0xF2⟩

/-! ## Well-formedness refuses ill-formed terms -/

theorem test_wf_register_index : (Instr.load 256).wf = false ∧ (Instr.store 256).wf = false ∧
    (Instr.load 255).wf = true ∧ (Instr.store 255).wf = true := by decide

theorem test_wf_jump_target : (Instr.jmp 65536).wf = false ∧ (Instr.jz 65536).wf = false ∧
    (Instr.jnz 65536).wf = false ∧ (Instr.jmp 65535).wf = true ∧ (Instr.jz 65535).wf = true ∧
    (Instr.jnz 65535).wf = true := by decide

theorem test_wf_opcodeMap : OpcodeMap.default.Wf ∧ reversedMap.Wf ∧
    ¬ { OpcodeMap.default with stop := 0x00 }.Wf := by decide

theorem test_wf_config : Config.testConfiguration.Wf ∧ ¬ { Config.testConfiguration with cStack := 0 }.Wf ∧
    ¬ { Config.testConfiguration with cRegs := 0 }.Wf ∧ ¬ { Config.testConfiguration with cRegs := 257 }.Wf ∧
    ¬ { Config.testConfiguration with cProg := 0 }.Wf ∧ ¬ { Config.testConfiguration with pcW := 6 }.Wf ∧
    ¬ { Config.testConfiguration with opcodeMap := { OpcodeMap.default with stop := 0x00 } }.Wf := by decide

theorem test_wf_memory : Memory.Wf [(1, 5), (2, 6)] ∧ ¬ Memory.Wf [(2, 6), (1, 5)] ∧ ¬ Memory.Wf [(1, 5), (1, 6)] ∧
    ¬ Memory.Wf [(1, 0)] := by decide

theorem test_inv_refuses : ¬ { State.reset with sp := 5 }.Inv ∧ ¬ { State.reset with st := [] }.Inv ∧
    ¬ { State.reset with x := [] }.Inv ∧ ¬ { State.reset with pc := 65 }.Inv ∧
    ¬ { running [] [] with prog := [(0, 1)] }.Inv ∧ ¬ { faulted with status := .running }.Inv ∧
    ¬ { State.reset with steps := 1 }.Inv := by and_intros <;> decide

/-! ## Decoding of words written out from the tables of R71 and R74 (the examples are R82's) -/

theorem test_decode_format_n : decodeTableWord 8 0x00 = some .nop ∧ decodeTableWord 8 0x02 = some .pop ∧
    decodeTableWord 8 0x08 = some .add ∧ decodeTableWord 8 0x09 = some .sub ∧ decodeTableWord 8 0x0A = some .mul ∧
    decodeTableWord 8 0x0B = some .div ∧ decodeTableWord 8 0x0C = some .print ∧
    decodeTableWord 8 0x0D = some .stop := by decide

theorem test_decode_push : decodeTableWord 40 0x0000000501 = some (.push 5) ∧
    decodeTableWord 40 0xFFFFFFFF01 = some (.push 0xFFFFFFFF) ∧
    decodeTableWord 40 0x8000000001 = some (.push 0x80000000) ∧
    decodeTableWord 40 0x1234567801 = some (.push 0x12345678) := by decide

theorem test_decode_register : decodeTableWord 16 0x0303 = some (.load 3) ∧ decodeTableWord 16 0xFF03 = some (.load 255) ∧
    decodeTableWord 16 0xFF04 = some (.store 255) ∧ decodeTableWord 16 0x8004 = some (.store 128) := by decide

theorem test_decode_jump : decodeTableWord 24 0x010205 = some (.jmp 258) ∧ decodeTableWord 24 0x000006 = some (.jz 0) ∧
    decodeTableWord 24 0xFFFF07 = some (.jnz 65535) ∧ decodeTableWord 24 0x800006 = some (.jz 32768) := by decide

/-- 0x0E is the first unassigned byte (R76). -/
theorem test_decode_unassigned : decodeTableWord 8 0x0E = none ∧ decodeTableWord 8 0xFF = none := by decide

/-- R82 in the other direction. -/
theorem test_encode : instrValue OpcodeMap.default (.push 0xFFFFFFFF) = 0xFFFFFFFF01 ∧
    encode OpcodeMap.default (.jmp 258) = [0x05, 0x02, 0x01] ∧
    encode OpcodeMap.default (.store 255) = [0x04, 0xFF] := by decide

/-- R95 at the end of the bytes given: no byte, an unknown opcode, a truncated operand. -/
theorem test_decode_rejects : decode OpcodeMap.default [] = .error .noByte ∧
    decode OpcodeMap.default [0x0E] = .error (.unknownOpcode 0x0E) ∧
    decode OpcodeMap.default [0x01, 0x05, 0x00] = .error (.truncatedOperand 0x01) := ⟨rfl, rfl, rfl⟩

/-! ## One step of each instruction -/

/-- DM-1. -/
theorem test_nop : stackAndPc (running [0x00] []) = some ([], 1) := by decide
/-- DM-3 and DM-6. -/
theorem test_push : stackAndPc (running [0x01, 0xFF, 0xFF, 0xFF, 0xFF] []) = some ([-1], 5) ∧
    stackAndPc (running [0x01, 1, 0, 0, 0] [1, 2, 3]) = some ([1, 2, 3, 1], 5) := by decide
/-- DM-7. -/
theorem test_push_full : faultAndStack (running [0x01, 1, 0, 0, 0] [1, 2, 3, 4]) = some (0x32, 0, [1, 2, 3, 4]) := by decide
/-- DM-8 and DM-9. -/
theorem test_pop : stackAndPc (running [0x02] [7, 8]) = some ([7], 1) ∧
    faultAndStack (running [0x02] []) = some (0x53, 0, []) := by decide
/-- DM-11. -/
theorem test_load : stackAndPc (running [0x03, 0x03] [] [0, 0, 0, -9]) = some ([-9], 2) := by decide
/-- DM-13, DM-14 and DM-15: the register check comes first. -/
theorem test_load_faults : faultAndStack (running [0x03, 0xFF] []) = some (0x74, 0, []) ∧
    faultAndStack (running [0x03, 0x00] [1, 2, 3, 4]) = some (0x72, 0, [1, 2, 3, 4]) ∧
    faultAndStack (running [0x03, 0x04] [1, 2, 3, 4]) = some (0x74, 0, [1, 2, 3, 4]) := by decide
/-- DM-16 and DM-20. -/
theorem test_store : (nextState? (step (running [0x04, 0x01] [10, 20]))).map (·.x) = some [0, 20, 0, 0] ∧
    stackAndPc (running [0x04, 0x01] [10, 20]) = some ([10], 2) ∧
    (nextState? (step (running [0x04, 0x00] [-7] [99, 0, 0, 0]))).map (·.x) = some [-7, 0, 0, 0] := by decide
/-- DM-17, DM-18 and DM-19. -/
theorem test_store_faults : faultAndStack (running [0x04, 0x01] []) = some (0x93, 0, []) ∧
    faultAndStack (running [0x04, 0x04] []) = some (0x94, 0, []) ∧
    faultAndStack (running [0x04, 0x80] [5]) = some (0x94, 0, [5]) := by decide
/-- CF-3 and CF-4. -/
theorem test_jmp : stackAndPc (running [0x05, 0x3F, 0x00] []) = some ([], 63) ∧
    faultAndStack (running [0x05, 0x40, 0x00] []) = some (0xB5, 0, []) := by decide
/-- CF-18, CF-8 and CF-11. -/
theorem test_jz : stackAndPc (running [0x06, 0x0A, 0x00] [3, 0]) = some ([3], 10) ∧
    stackAndPc (running [0x06, 0x0A, 0x00] [-1]) = some ([], 3) ∧
    stackAndPc (running [0x06, 0x40, 0x00] [1]) = some ([], 3) := by decide
/-- CF-9 and CF-10. -/
theorem test_jz_faults : faultAndStack (running [0x06, 0x0A, 0x00] []) = some (0xD3, 0, []) ∧
    faultAndStack (running [0x06, 0x40, 0x00] [0]) = some (0xD5, 0, [0]) := by decide
/-- CF-14, CF-12 and CF-16. -/
theorem test_jnz : stackAndPc (running [0x07, 0x0A, 0x00] [0x80000000]) = some ([], 10) ∧
    stackAndPc (running [0x07, 0x0A, 0x00] [0]) = some ([], 3) ∧
    stackAndPc (running [0x07, 0x40, 0x00] [0]) = some ([], 3) := by decide
/-- CF-17 and CF-15. -/
theorem test_jnz_faults : faultAndStack (running [0x07, 0x0A, 0x00] []) = some (0xF3, 0, []) ∧
    faultAndStack (running [0x07, 0x40, 0x00] [7]) = some (0xF5, 0, [7]) := by decide
/-- AR-2 and AR-41. -/
theorem test_add : stackAndPc (running [0x08] [0x7FFFFFFF, 1]) = some ([0x80000000], 1) ∧
    stackAndPc (running [0x08] [1, 2, 3]) = some ([1, 5], 1) := by decide
/-- AR-7 and AR-8. -/
theorem test_sub : stackAndPc (running [0x09] [3, 5]) = some ([-2], 1) ∧
    stackAndPc (running [0x09] [0x80000000, 1]) = some ([0x7FFFFFFF], 1) := by decide
/-- AR-12, AR-16 and AR-18. -/
theorem test_mul : stackAndPc (running [0x0A] [-6, 7]) = some ([-42], 1) ∧
    stackAndPc (running [0x0A] [65537, 65537]) = some ([131073], 1) ∧
    stackAndPc (running [0x0A] [0x80000000, -1]) = some ([0x80000000], 1) := by decide
/-- AR-20, AR-21, AR-22, AR-26 and AR-31. -/
theorem test_div : stackAndPc (running [0x0B] [-7, 2]) = some ([-3], 1) ∧
    stackAndPc (running [0x0B] [7, -2]) = some ([-3], 1) ∧ stackAndPc (running [0x0B] [-7, -2]) = some ([3], 1) ∧
    stackAndPc (running [0x0B] [-1, 2]) = some ([0], 1) ∧
    stackAndPc (running [0x0B] [0x80000000, -1]) = some ([0x80000000], 1) := by decide
/-- AR-33, AR-35, AR-37, AR-38 and AR-39. -/
theorem test_arithmetic_faults : faultAndStack (running [0x0B] [7, 0]) = some (0x177, 0, [7, 0]) ∧
    faultAndStack (running [0x08] [9]) = some (0x113, 0, [9]) ∧ faultAndStack (running [0x09] [4]) = some (0x133, 0, [4]) ∧
    faultAndStack (running [0x0A] [4]) = some (0x153, 0, [4]) ∧
    faultAndStack (running [0x0B] [0]) = some (0x173, 0, [0]) := by decide
/-- OH-4 and OH-6. -/
theorem test_print : (nextState? (step (running [0x0C] [1, 2]))).map (·.out) = some [2] ∧
    stackAndPc (running [0x0C] [1, 2]) = some ([1], 1) ∧ faultAndStack (running [0x0C] []) = some (0x193, 0, []) := by decide
/-- OH-7. -/
theorem test_stop : haltOf (running [0x0D] [1, 2] [4, 0, 0, 0]) = some (.stopped, 0, 0, 1) ∧
    stackAndPc (running [0x0D] [1, 2] [4, 0, 0, 0]) = some ([1, 2], 1) := by decide

/-! ## The front of the step -/

/-- D-1 to D-5. -/
theorem test_fetch_faults : haltOf (running [] []) = some (.faulted, 0x6, 0, 0) ∧
    haltOf (running [0x0E] []) = some (.faulted, 0x1D6, 0, 0) ∧ haltOf (running [0xFF] []) = some (.faulted, 0x1FF6, 0, 0) ∧
    haltOf (running [0x01, 0x05, 0x00] []) = some (.faulted, 0x36, 0, 0) ∧
    haltOf (running [0x05, 0x00] []) = some (.faulted, 0xB6, 0, 0) := by decide

/-- D-8 and D-9. -/
theorem test_budget : haltOf (State.budget (running [0x0D] []) 0) = some (.faulted, 0x8, 0, 0) ∧
    haltOf (State.budget (running [0x0D] []) 1) = some (.stopped, 0, 0, 1) := by decide

/-- D-11, its second step: a jump into an operand decodes from there. -/
theorem test_jump_into_operand :
    stackAndPc { running [0x05, 0x01, 0x00, 0x0D, 0x00, 0x00, 0x0D] [] with pc := 1 } = some ([3328], 6) := by decide

/-- D-14: the last instruction of a full store moves the pc to `C_PROG`. -/
theorem test_last_address :
    stackAndPc { running (List.replicate 59 0 ++ [0x01, 0x05, 0, 0, 0]) [] with pc := 59 } = some ([5], 64) := by decide

/-! ## The host's side -/

/-- H-1 to H-3. -/
theorem test_load_program :
    (transact (.loadProgram .unreadable) State.reset).map (fun t => (t.status, t.fault.faultWord, t.progLen)) =
      some (.faulted, 0x1, 0) ∧
    (transact (.loadProgram (.bytes (List.replicate 65 1))) State.reset).map (fun t => (t.status, t.progLen, t.prog)) =
      some (.faulted, 0, []) ∧
    (transact (.loadProgram (.bytes (List.replicate 64 0))) State.reset).map (fun t => (t.status, t.progLen)) =
      some (.loaded, 64) := by decide

/-- H-8. -/
theorem test_status_read :
    (List.range 8).map (statusRead { running [] [7, 0] with
      status := .faulted, fault := ⟨some .divideByZero, true, 0x0B, 10⟩, progLen := 12, pc := 10, steps := 2 }) =
      [some 4, some 0x177, some 10, some 12, some 10, some 2, some 2, none] := by decide

/-- OH-1 and OH-3: the host's text. -/
theorem test_host_text : hostText { State.reset with out := [42, 0x80000000] } =
    ['4', '2', '\n', '-', '2', '1', '4', '7', '4', '8', '3', '6', '4', '8', '\n'] := by decide

/-- P5 of section 3, in the syntax of R80: `loop: LOAD 0 -- x` and `JMP loop`. -/
theorem test_assemble : assembleText
    (['l', 'o', 'o', 'p', ':', ' ', 'L', 'O', 'A', 'D', ' ', '0', ' ', '-', '-', ' ', 'x', '\n'] ++
      ['J', 'M', 'P', ' ', 'l', 'o', 'o', 'p', ' ', ';', ' ', 'P', 'U', 'S', 'H', ' ', '-', '1']) =
    some [.load 0, .jmp 0, .push 0xFFFFFFFF] := by decide

/-- An operand out of its range, and an operand where none may stand, are refused (R80). -/
theorem test_assemble_refuses : assembleText ['L', 'O', 'A', 'D', ' ', '2', '5', '6'] = none ∧
    assembleText ['P', 'O', 'P', ' ', '1'] = none ∧ assembleText ['L', 'O', 'A', 'D', ' ', '-', '0'] = none ∧
    assembleText ['p', 'o', 'p'] = none := by decide

/-! ## Witnesses: the hypotheses of each obligation can be met -/

theorem reset_inv : State.reset.Inv := by decide

theorem witness_DecodeOfEncodeGivesTheInstruction : OpcodeMap.default.Wf ∧ reversedMap.Wf ∧
    (Instr.store 255).wf = true ∧ (Instr.jnz 65535).wf = true ∧ (Instr.push 0xFFFFFFFF).wf = true := by decide

theorem witness_DecodedBytesAreTheEncoding :
    decode OpcodeMap.default [0x04, 0xFF, 0x0D] = .ok (.store 255, [0x0D]) := rfl

theorem witness_ProgramBytesDecodeInSequence : OpcodeMap.default.Wf ∧
    ∀ i ∈ [Instr.push 5, .load 255, .jmp 65535, .stop], i.wf = true := by decide

theorem witness_OpcodeByteNamesItsMnemonic : OpcodeMap.default.Wf ∧
    OpcodeMap.default.decodeByte 0x0D = some .stop ∧ OpcodeMap.default.decodeByte 0x0E = none := by decide

theorem witness_OperandFieldsAreReadAsTheTableSays : OpcodeMap.default.Wf ∧
    (0xFF : Byte).toNat = 255 ∧ ((0x80 : Byte) ++ (0x01 : Byte)).toNat = 0x8001 := by decide

theorem witness_OperandBytesAreNeverIllegal : OpcodeMap.default.Wf ∧ [(0xFF : Byte), 0xFF].length = Mnemonic.jmp.width ∧
    (running [] [0]).Inv ∧ (running [] [0]).cfg.cRegs ≤ 4 ∧ (running [] [0]).cfg.cProg ≤ 64 ∧ 1 ≤ (running [] [0]).sp ∧
    (running [] [0]).st[0]? = some 0 ∧ (running [] [7]).Inv ∧ (running [] [7]).st[0]? = some 7 ∧ (7 : Word) ≠ 0 := by and_intros <;> decide

theorem witness_OpcodeValuesDoNotChangeMeaning : (running [0x08] [2, 3]).Inv ∧ reversedMap.Wf ∧
    (running [0x08] [2, 3]).status = .running ∧ (running [0x08] [9]).Inv := by and_intros <;> decide

/-- A jump with a label in front: one NOP, then `l: JMP l`. -/
def labelled : List AsmItem := [⟨none, some ⟨.nop, .absent⟩⟩, ⟨some ['l'], some ⟨.jmp, .label ['l']⟩⟩]

theorem witness_AssembledInstructionsAreWellFormed : assemble labelled = some [.nop, .jmp 1] := by decide

theorem witness_LabelIsTheAddressOfTheNextInstruction :
    labelled = [⟨none, some ⟨.nop, .absent⟩⟩] ++ ⟨some ['l'], some ⟨.jmp, .label ['l']⟩⟩ :: [] ∧
    assemble labelled = some [.nop, .jmp 1] := by decide

theorem witness_StepRunsTheInstructionAtThePc : (running [0x05, 0x3F, 0x00] []).Inv ∧
    (running [0x05, 0x3F, 0x00] []).status = .running ∧ budgetUsedUp (running [0x05, 0x3F, 0x00] []) = false ∧
    (Instr.jmp 63).wf = true ∧ 0 + (Instr.jmp 63).length ≤ (running [0x05, 0x3F, 0x00] []).progLen ∧
    ∀ k, k < (Instr.jmp 63).length → (encode OpcodeMap.default (.jmp 63))[k]? =
      some (Memory.read (running [0x05, 0x3F, 0x00] []).prog (0 + k)) := by and_intros <;> decide

theorem witness_FetchFollowsThePseudocode : (running [0x05, 0x00] []).Inv ∧
    fetch (running [0x05, 0x00] []) = .raised .invalidOpcode (some 0x05) ∧
    fetchAsWritten (running [0x05, 0x00] []) = .raised .invalidOpcode (some 0x05) := by and_intros <;> decide

theorem witness_StepFaultsInTheOrderOfTheTable : (State.budget (running [0x0D] []) 0).Inv ∧
    (State.budget (running [0x0D] []) 0).cfg.stepBudget = some 0 ∧
    (running [] []).Inv ∧ budgetUsedUp (running [] []) = false ∧ (running [] []).progLen ≤ (running [] []).pc ∧
    (running [0x0E] []).Inv ∧ 0 < (running [0x0E] []).progLen ∧ OpcodeMap.default.decodeByte 0x0E = none ∧
    (running [0x01, 0x05, 0, 0] []).Inv ∧ OpcodeMap.default.decodeByte 0x01 = some .push ∧
    (running [0x01, 0x05, 0, 0] []).progLen < 0 + 1 + Mnemonic.push.width := by and_intros <;> decide

theorem witness_NoStepOutsideRunning : State.reset.status ≠ .running ∧ faulted.Halted ∧
    transact .reset faulted = some (State.resetWith faulted.cfg) := by decide

theorem witness_FaultedIsLeftOnlyByReset : faulted.status = .faulted ∧ faulted.Inv ∧
    transact .reset faulted = some (State.resetWith faulted.cfg) := by and_intros <;> decide

theorem witness_FaultsArePrecise : (running [0x02] []).Inv ∧ step (running [0x02] []) = .next faulted ∧
    faulted.status = .faulted := ⟨by decide, rfl, rfl⟩

theorem witness_FaultRecordsTheFetchedOpcode : (running [] []).Inv ∧
    ∃ t, step (running [] []) = .next t ∧ t.status = .faulted ∧ t.fault.opcodeValid = false :=
  ⟨by decide, _, rfl, rfl, rfl⟩

theorem witness_CompletedInstructionsAreCounted : ∃ t, step (running [0x00] []) = .next t ∧ t.status ≠ .faulted :=
  ⟨_, rfl, by decide⟩

theorem witness_LifeCycleIsAsDrawn : (∃ t, step (running [0x0D] []) = .next t ∧ t.status = .stopped) ∧
    (∃ t, transact (.loadProgram (.bytes [0x0D])) State.reset = some t ∧
      ∃ u, transact .start t = some u ∧ u.status = .running) := ⟨⟨_, rfl, rfl⟩, _, rfl, _, rfl, rfl⟩

theorem witness_PushPutsTheLiteralOnTop : (running [] [1, 2, 3]).Inv ∧ (running [] [1, 2, 3]).sp < 4 ∧
    (running [] [1, 2, 3, 4]).Inv ∧ (running [] [1, 2, 3, 4]).sp = (running [] [1, 2, 3, 4]).cfg.cStack := by and_intros <;> decide

theorem witness_PopDiscardsTheTop : 1 ≤ (running [] [7]).sp ∧ (running [] []).sp = 0 := by decide

theorem witness_LoadPushesTheRegister : (running [] [1, 2, 3]).Inv ∧ 3 < (running [] [1, 2, 3]).cfg.cRegs ∧
    (running [] [1, 2, 3]).sp < (running [] [1, 2, 3]).cfg.cStack ∧ (running [] [1, 2, 3]).cfg.cRegs ≤ 4 ∧
    (running [] [1, 2, 3, 4]).Inv ∧ (running [] [1, 2, 3, 4]).sp = (running [] [1, 2, 3, 4]).cfg.cStack := by and_intros <;> decide

theorem witness_StorePopsIntoTheRegister : (running [] [7]).Inv ∧ 3 < (running [] [7]).cfg.cRegs ∧
    1 ≤ (running [] [7]).sp ∧ (running [] [7]).st[0]? = some 7 ∧ (running [] [7]).cfg.cRegs ≤ 4 ∧
    (running [] []).Inv ∧ (running [] []).sp = 0 := by and_intros <;> decide

theorem witness_RegisterRoundTrip : (running [] [1, 2, 3]).Inv ∧ 3 < (running [] [1, 2, 3]).cfg.cRegs ∧
    (running [] [1, 2, 3]).sp < (running [] [1, 2, 3]).cfg.cStack := by and_intros <;> decide

theorem witness_JmpSetsThePc : 63 < (running [0x05, 0x3F, 0] []).cfg.cProg ∧ (running [0x05, 0x3F, 0] []).cfg.cProg ≤ 64 ∧
    (running [0x05, 0x3F, 0] []).Inv ∧ (running [0x05, 0x3F, 0] []).status = .running ∧
    (running [0x05, 0x3F, 0] []).progLen ≤ 3 ∧
    (∃ t, exec (.jmp 3) (running [0x05, 0x3F, 0] []) = .next t ∧ budgetUsedUp t = false) ∧
    (State.budget (running [0x05, 0x3F, 0] []) 2).Inv ∧
    (∃ t, exec (.jmp 63) (State.budget (running [0x05, 0x3F, 0] []) 2) = .next t ∧ budgetUsedUp t = false) := by
  refine ⟨by decide, by decide, by decide, rfl, by decide, ⟨_, rfl, rfl⟩, by decide, ⟨_, rfl, rfl⟩⟩

theorem witness_JzJumpsOnZero : (running [] [0]).Inv ∧ 1 ≤ (running [] [0]).sp ∧ (running [] [0]).st[0]? = some 0 ∧
    63 < (running [] [0]).cfg.cProg ∧ (running [] [0]).cfg.cProg ≤ 64 ∧ (running [] [1]).Inv ∧
    (running [] [1]).st[0]? = some 1 ∧ (running [] []).Inv ∧ (running [] []).sp = 0 := by and_intros <;> decide

theorem witness_JnzJumpsOnNonzero : (running [] [0x80000000]).Inv ∧ 1 ≤ (running [] [0x80000000]).sp ∧
    (running [] [0x80000000]).st[0]? = some 0x80000000 ∧ 63 < (running [] [0]).cfg.cProg ∧
    (running [] [0]).cfg.cProg ≤ 64 ∧ (running [] [0]).Inv ∧ (running [] [0]).st[0]? = some 0 ∧
    (running [] []).Inv ∧ (running [] []).sp = 0 := by and_intros <;> decide

theorem witness_ConditionalJumpsPopOneValue : (running [] [3, 0]).status = .running ∧
    (∃ t, exec (.jz 10) (running [] [3, 0]) = .next t ∧ t.status ≠ .faulted) ∧
    (∃ t, exec (.jnz 10) (running [] [3, 0]) = .next t ∧ t.status ≠ .faulted) :=
  ⟨rfl, ⟨_, rfl, by decide⟩, ⟨_, rfl, by decide⟩⟩

theorem witness_AddReplacesTwoWordsByTheirSum : (running [] [2, 3]).Inv ∧ 2 ≤ (running [] [2, 3]).sp ∧
    (running [] [9]).Inv ∧ (running [] [9]).sp < 2 := by and_intros <;> decide

theorem witness_SubReplacesTwoWordsByTheirDifference : (running [] [2, 3]).Inv ∧ 2 ≤ (running [] [2, 3]).sp ∧
    (running [] [9]).Inv ∧ (running [] [9]).sp < 2 := by and_intros <;> decide

theorem witness_MulReplacesTwoWordsByTheirProduct : (running [] [2, 3]).Inv ∧ 2 ≤ (running [] [2, 3]).sp ∧
    (running [] [9]).Inv ∧ (running [] [9]).sp < 2 := by and_intros <;> decide

theorem witness_DivReplacesTwoWordsByTheQuotient : (running [] [-7, 2]).Inv ∧ 2 ≤ (running [] [-7, 2]).sp ∧
    (running [] [-7, 2]).st[0]? = some 0xFFFFFFF9 ∧ (running [] [-7, 2]).st[1]? = some 2 ∧ (2 : Word) ≠ 0 ∧
    (running [] [7, 0]).Inv ∧ (running [] [7, 0]).st[1]? = some 0 ∧ (running [] [0]).Inv ∧
    (running [] [0]).sp < 2 := by and_intros <;> decide

theorem witness_QuotientIsRoundedTowardZero : (-2 : Int) ≠ 0 ∧ truncDiv 7 (-2) = -3 ∧ truncDiv (-1) 2 = 0 ∧
    (0xFFFFFFFF : Word) ≠ 0 ∧ sint (word (truncDiv (sint 0x80000000) (sint 0xFFFFFFFF))) = -2147483648 := by decide

theorem witness_EarlierOperandIsOnTheLeft : (running [] [1, 2]).Inv ∧
    (running [] [1, 2]).sp + 2 ≤ (running [] [1, 2]).cfg.cStack ∧ (3 : Word) ≠ 0 := by and_intros <;> decide

theorem witness_PrintEmitsAndPopsTheTop : (running [] [42]).Inv ∧ 1 ≤ (running [] [42]).sp ∧ (running [] []).Inv ∧
    (running [] []).sp = 0 := by and_intros <;> decide

theorem witness_OutputGrowsOnlyByPrint : (∃ t, step (running [0x0C] [42]) = .next t ∧ t.out = [42]) ∧
    (∃ t, step (running [0x00] [42]) = .next t ∧ t.out = []) ∧ hostLine 0 = ['0', '\n'] :=
  ⟨⟨_, rfl, rfl⟩, ⟨_, rfl, rfl⟩, by decide⟩

theorem witness_OnlyLoadAndStoreUseRegisters : (∃ t, exec .add (running [] [2, 3]) = .next t) ∧
    (∀ r, Instr.add ≠ .store r) ∧ (∀ r, Instr.add ≠ .load r) ∧
    (∃ t, exec (.store 3) (running [] [7]) = .next t) ∧ (0 : Nat) ≠ 3 ∧ (running [] [2, 3]).Inv ∧
    (running [] [2, 3]).cfg.cRegs ≤ 4 :=
  ⟨⟨_, rfl⟩, fun _ => Instr.noConfusion, fun _ => Instr.noConfusion, ⟨_, rfl⟩, by decide, by decide, by decide⟩

theorem witness_ProgramStoreIsReadOnlyWhileRunning : (∃ t, step (running [0x04, 0x01] [7]) = .next t) ∧
    (running [] []).status = .running := ⟨⟨_, rfl⟩, rfl⟩

theorem witness_ParametersNeverChange : (∃ t, step (running [0x04, 0x01] [7]) = .next t) ∧
    ∃ t, transact .reset faulted = some t := ⟨⟨_, rfl⟩, ⟨_, rfl⟩⟩

/-- A form of each instruction that completes and, where there is one, a form that faults. -/
theorem witness_DataMovementFrame : (∃ t, exec (.store 3) (running [] [7]) = .next t ∧ t.status ≠ .faulted) ∧
    (∃ t, exec (.load 3) (running [] [1, 2, 3]) = .next t ∧ t.status ≠ .faulted) ∧
    (∃ t, exec (.load 4) (running [] []) = .next t ∧ t.status = .faulted) :=
  ⟨⟨_, rfl, by decide⟩, ⟨_, rfl, by decide⟩, ⟨_, rfl, rfl⟩⟩

theorem witness_ControlFlowFrame : (∃ t, exec (.jz 63) (running [] [0]) = .next t ∧ t.status ≠ .faulted) ∧
    (∃ t, exec (.jmp 64) (running [] []) = .next t ∧ t.status = .faulted) := ⟨⟨_, rfl, by decide⟩, ⟨_, rfl, rfl⟩⟩

theorem witness_ArithmeticFrame : (∃ t, exec .div (running [] [-7, 2]) = .next t ∧ t.status ≠ .faulted) ∧
    (∃ t, exec .div (running [] [7, 0]) = .next t ∧ t.status = .faulted) := ⟨⟨_, rfl, by decide⟩, ⟨_, rfl, rfl⟩⟩

theorem witness_OutputAndHaltFrame : (∃ t, exec .print (running [] [42]) = .next t ∧ t.status ≠ .faulted) ∧
    (∃ t, exec .stop (running [] []) = .next t ∧ t.status = .stopped) := ⟨⟨_, rfl, by decide⟩, ⟨_, rfl, rfl⟩⟩

theorem witness_NetStackEffect : (running [] [2, 3]).Inv ∧ (running [] [2, 3]).status = .running ∧
    (∃ t, exec .add (running [] [2, 3]) = .next t ∧ t.status ≠ .faulted) ∧
    (running [] [9]).sp < wordsPopped .add ∧
    (∃ t, exec .add (running [] [9]) = .next t ∧ t.fault.kind = some .stackUnderflow) ∧
    (∃ t, exec (.load 0) (running [] [1, 2, 3, 4]) = .next t ∧ t.fault.kind = some .stackOverflow) :=
  ⟨by decide, rfl, ⟨_, rfl, by decide⟩, by decide, ⟨_, rfl, rfl⟩, ⟨_, rfl, rfl⟩⟩

theorem witness_ResetMeetsTheInvariant : Config.testConfiguration.Wf := by decide

theorem witness_StepKeepsTheInvariant : (running [0x08] [2, 3]).Inv ∧
    ∃ t, step (running [0x08] [2, 3]) = .next t := ⟨by decide, _, rfl⟩

theorem witness_TransactionKeepsTheInvariant : State.reset.Inv ∧
    ∃ t, transact (.loadProgram (.bytes [0x0D])) State.reset = some t := ⟨by decide, _, rfl⟩

theorem witness_ReachableStatesMeetTheInvariant : Config.testConfiguration.Wf ∧
    Reachable Config.testConfiguration State.reset := ⟨by decide, .reset⟩

theorem witness_BudgetIsNeverExceeded : (State.budget (running [0x0D] []) 0).cfg.stepBudget = some 0 ∧
    (State.budget (running [0x0D] []) 0).steps ≤ 0 ∧ (∃ t, step (State.budget (running [0x0D] []) 0) = .next t) ∧
    (State.budget (running [0x0D] []) 1).steps ≤ 1 ∧ (∃ t, step (State.budget (running [0x0D] []) 1) = .next t) :=
  ⟨rfl, by decide, ⟨_, rfl⟩, by decide, ⟨_, rfl⟩⟩

theorem witness_EveryEnabledStepAnswers : (running [0x08] [2, 3]).Inv ∧ (running [0x08] [2, 3]).status = .running := by and_intros <;> decide

/-- The program is `JMP 0`, which without a budget never halts. -/
theorem witness_BudgetedRunHalts : (State.budget (running [0x05, 0, 0] []) 2).Inv ∧
    (State.budget (running [0x05, 0, 0] []) 2).status = .running ∧
    (State.budget (running [0x05, 0, 0] []) 2).cfg.stepBudget = some 2 := by and_intros <;> decide

/-- Two states that differ in a dead stack cell and in a byte past the program. -/
theorem witness_DeadStateIsNeverObserved :
    SameToPrograms (running [0x0C] [42])
      { running [0x0C] [42] with st := [42, 7, 0, 0], prog := [(0, 0x0C), (9, 5)] } ∧
    ∃ t, step (running [0x0C] [42]) = .next t := by
  refine ⟨⟨rfl, rfl, rfl, fun a ha => ?_⟩, _, rfl⟩
  obtain rfl : a = 0 := Nat.lt_one_iff.1 ha
  rfl

theorem witness_ResetAndStartTransactions : State.reset.status ≠ .loaded ∧ 63 < faulted.cfg.cProg ∧
    3 < faulted.cfg.cStack ∧ 3 < faulted.cfg.cRegs ∧
    ∃ t, transact (.loadProgram (.bytes [])) State.reset = some t ∧ t.status = .loaded := by
  refine ⟨by decide, by decide, by decide, by decide, _, rfl, rfl⟩

theorem witness_LoadProgramTransaction : State.reset.Inv ∧ State.reset.status = .idle ∧
    (List.replicate 64 (0 : Byte)).length ≤ State.reset.cfg.cProg ∧
    State.reset.cfg.cProg < (List.replicate 65 (0 : Byte)).length ∧ faulted.status ≠ .idle := by and_intros <;> decide

theorem witness_BootReachesTheFirstFetch : Config.testConfiguration.Wf ∧
    (List.replicate 64 (0 : Byte)).length ≤ Config.testConfiguration.cProg ∧
    Config.testConfiguration.cProg < (List.replicate 65 (0 : Byte)).length := by decide

/-- A state of each status, with the code of R28, and of each fault kind, with the code of R201. -/
theorem witness_StatusReadsGiveTheirFields :
    [Status.idle, .loaded, .running, .stopped, .faulted].map (fun v => statusRead { State.reset with status := v } 0) =
      [some 0, some 1, some 2, some 3, some 4] ∧
    [none, some FaultKind.loadError, some .stackOverflow, some .stackUnderflow, some .invalidRegister,
      some .invalidJumpTarget, some .invalidOpcode, some .divideByZero, some .stepBudgetExceeded].map
        (fun k => statusRead { State.reset with fault := ⟨k, false, 0, 0⟩ } 1) =
      [some 0, some 1, some 2, some 3, some 4, some 5, some 6, some 7, some 8] := by decide

theorem witness_PlacedInstructionRunsNext : Memory.Wf State.reset.prog ∧ State.reset.pc + 5 ≤ State.reset.cfg.cProg ∧
    budgetUsedUp State.reset = false ∧ State.reset.cfg.opcodeMap = OpcodeMap.default ∧
    decodeTableWord 24 0x010205 = some (.jmp 258) := by decide

theorem witness_MemReadIsLittleEndian : (running [0x78, 0x56, 0x34, 0x12] []).Inv ∧
    0 + 4 ≤ (running [0x78, 0x56, 0x34, 0x12] []).progLen := by and_intros <;> decide

end Sys2Proof.Tests
end

section
/-! PROOF. Which instructions use the register bank (10_state.md R24). -/

namespace Sys2Proof.Machine

variable {s t : State} {i : Instr} {k : FaultKind}

/-! ## Writes to the bank -/

/-- Only a completed STORE changes the bank. -/
theorem Completed.x_eq (h : Completed s i t) (hi : ∀ r, i ≠ .store r) : t.x = s.x := by
  cases h with
  | store r => exact absurd rfl (hi r)
  | _ => rfl

/-- A completed STORE r changes no register but `r`. -/
theorem Completed.store_x_getElem? {r j : Nat} (h : Completed s (.store r) t) (hj : j ≠ r) :
    t.x[j]? = s.x[j]? := by
  cases h with
  | store _ v => exact List.getElem?_set_ne hj.symm

/-- No instruction but STORE changes the bank, whether it completes or raises. -/
theorem exec_x_eq (h : exec i s = .next t) (hi : ∀ r, i ≠ .store r) : t.x = s.x := by
  obtain hc | ⟨k, -, rfl⟩ := exec_next h
  · exact hc.x_eq hi
  · rfl

/-- STORE r changes no register but `r`, whether it completes or raises. -/
theorem exec_store_x_getElem? {r j : Nat} (h : exec (.store r) s = .next t) (hj : j ≠ r) :
    t.x[j]? = s.x[j]? := by
  obtain hc | ⟨k, -, rfl⟩ := exec_next h
  · exact hc.store_x_getElem? hj
  · rfl

/-! ## Reads of the bank -/

/-- No completed case but LOAD's and STORE's depends on the bank. -/
theorem Completed.setRegs (h : Completed s i t) (hload : ∀ r, i ≠ .load r) (hstore : ∀ r, i ≠ .store r)
    (regs : List Word) : Completed (s.setRegs regs) i (t.setRegs regs) := by
  cases h with
  | load r => exact absurd rfl (hload r)
  | store r => exact absurd rfl (hstore r)
  | nop => exact .nop
  | push n hc hlen => exact .push n hc hlen
  | pop h => exact .pop h
  | jmp a ha => exact .jmp a ha
  | jzTaken a h hv ha => exact .jzTaken a h hv ha
  | jzNot a v h hv h0 => exact .jzNot a v h hv h0
  | jnzTaken a v h hv h0 ha => exact .jnzTaken a v h hv h0 ha
  | jnzNot a h hv => exact .jnzNot a h hv
  | add l r h hr hl => exact .add l r h hr hl
  | sub l r h hr hl => exact .sub l r h hr hl
  | mul l r h hr hl => exact .mul l r h hr hl
  | div l r h hr hl h0 => exact .div l r h hr hl h0
  | print v h hv => exact .print v h hv
  | stop => exact .stop

/-- No raised case depends on the bank: LOAD and STORE compare their index with `C_REGS` (R104). -/
theorem Raised.setRegs (h : Raised s i k) (regs : List Word) : Raised (s.setRegs regs) i k := by
  cases h with
  | push n h => exact .push n h
  | pop h => exact .pop h
  | loadReg r h => exact .loadReg r h
  | loadFull r hr h => exact .loadFull r hr h
  | storeReg r h => exact .storeReg r h
  | storeEmpty r hr h => exact .storeEmpty r hr h
  | jmp a h => exact .jmp a h
  | jzEmpty a h => exact .jzEmpty a h
  | jzTarget a h hv ha => exact .jzTarget a h hv ha
  | jnzEmpty a h => exact .jnzEmpty a h
  | jnzTarget a v h hv h0 ha => exact .jnzTarget a v h hv h0 ha
  | add h => exact .add h
  | sub h => exact .sub h
  | mul h => exact .mul h
  | divEmpty h => exact .divEmpty h
  | divZero h hv => exact .divZero h hv
  | print h => exact .print h

/-- Replacing the bank commutes with every instruction but LOAD and STORE. The invariant makes the two case lists
exhaustive. -/
theorem exec_setRegs (hs : s.Inv) (hload : ∀ r, i ≠ .load r) (hstore : ∀ r, i ≠ .store r) (regs : List Word) :
    exec i (s.setRegs regs) = mapNext (fun t => t.setRegs regs) (exec i s) := by
  obtain ⟨t, hc⟩ | ⟨k, hr⟩ := exec_total hs i
  · rw [exec_of_completed hc, exec_of_completed (hc.setRegs hload hstore regs)]
    rfl
  · rw [exec_of_raised hr, exec_of_raised (hr.setRegs regs)]
    rfl

/-! ## The index check, and the rule -/

/-- A raised case changes only the status and the fault record. -/
theorem Raised.raises (h : Raised s i k) : Raises i s k :=
  ⟨(s.faultOf i k).fault, rfl, exec_of_raised h⟩

/-- Settles O39: the case lists of `exec` say that only STORE changes the bank, and that only LOAD and STORE have a case
that depends on it. -/
theorem onlyLoadAndStoreUseRegisters : Obligations.OnlyLoadAndStoreUseRegisters := by
  unfold Obligations.OnlyLoadAndStoreUseRegisters
  exact ⟨fun _ _ _ => exec_x_eq, fun _ _ _ _ => exec_store_x_getElem?,
    fun _ _ regs hs hload hstore => exec_setRegs hs hload hstore regs,
    fun _ r hr => ⟨Raised.raises (.loadReg r hr), Raised.raises (.storeReg r hr)⟩⟩

end Sys2Proof.Machine
end

section
/-! PROOF. Who writes the program store (20_memory.md R52): no step does, and RUNNING accepts no load. -/

namespace Sys2Proof.Machine

variable {s t : State} {i : Instr}

/-! ## What a step leaves of the store -/

/-- `t` has the parameters and the loaded program of `s`: all that a read of the program store depends on. -/
structure SameProgram (s t : State) : Prop where
  cfg : t.cfg = s.cfg
  prog : t.prog = s.prog
  progLen : t.progLen = s.progLen

/-- Every byte address reads alike, also one that does not exist. -/
theorem SameProgram.readByte_eq (h : SameProgram s t) (a : Nat) : t.readByte a = s.readByte a := by
  simp only [State.readByte, h.cfg, h.prog]

/-- Fault entry has no effect on the program (R205). -/
theorem sameProgram_enterFault (k : FaultKind) (op : Option Byte) : SameProgram s (s.enterFault k op) :=
  ⟨rfl, rfl, rfl⟩

/-- No completed case lists the program among its updates. -/
theorem Completed.sameProgram (h : Completed s i t) : SameProgram s t := by
  cases h with
  | _ => exact ⟨rfl, rfl, rfl⟩

/-- No instruction changes the program, whether it completes or raises. -/
theorem exec_sameProgram (h : exec i s = .next t) : SameProgram s t := by
  obtain hc | ⟨k, -, rfl⟩ := exec_next h
  · exact hc.sameProgram
  · exact sameProgram_enterFault _ _

/-- No step changes the program, whether it raises before execution or executes an instruction. -/
theorem step_sameProgram (h : step s = .next t) : SameProgram s t := by
  obtain ⟨-, ⟨k, op, -, rfl⟩ | ⟨i, -, hi⟩⟩ := step_next h
  · exact sameProgram_enterFault k op
  · exact exec_sameProgram hi

/-! ## When the host may load -/

/-- LOAD_PROGRAM has a transition only in IDLE (R236). -/
theorem loadProgram_eq_none (src : Source) (hs : s.status ≠ .idle) : loadProgram src s = none :=
  if_neg hs

/-- Settles O40: the case lists of `step` and `exec` keep the parameters and the program, on which alone a read of the
store depends; and RUNNING is not IDLE, where a load is accepted. -/
theorem programStoreIsReadOnlyWhileRunning : Obligations.ProgramStoreIsReadOnlyWhileRunning := by
  unfold Obligations.ProgramStoreIsReadOnlyWhileRunning
  refine ⟨fun s t h => ?_, fun s src hs => ?_⟩
  · have hp := step_sameProgram h
    exact ⟨hp.prog, hp.progLen, hp.readByte_eq⟩
  · have hidle : s.status ≠ .idle := by simp [hs]
    exact loadProgram_eq_none src hidle

end Sys2Proof.Machine
end

section
/-! PROOF. The opcode byte and the operand bytes apart (30_encoding.md sections 2 and 4): the byte names at most one
mnemonic (R75), and every value of the operand bytes is legal (R77). -/

namespace Sys2Proof

/-! ## The opcode byte -/

/-- Looking a byte up fails exactly when no mnemonic has it; the map need not be injective. -/
theorem OpcodeMap.decodeByte_eq_none {m : OpcodeMap} {op : Byte} :
    m.decodeByte op = none ↔ ∀ k, m.byte k ≠ op := by
  simp [OpcodeMap.decodeByte]

/-- A mnemonic found for a byte has that byte; the map need not be injective. -/
theorem OpcodeMap.byte_of_decodeByte {m : OpcodeMap} {op : Byte} {k : Mnemonic} (h : m.decodeByte op = some k) :
    m.byte k = op :=
  beq_iff_eq.1 (List.find?_some (p := fun k => m.byte k == op) h)

/-- Under a well-formed map the lookup gives back the mnemonic whose byte it is given. -/
theorem OpcodeMap.decodeByte_byte {m : OpcodeMap} (hm : m.Wf) (k : Mnemonic) : m.decodeByte (m.byte k) = some k := by
  cases hd : m.decodeByte (m.byte k) with
  | none => exact absurd rfl (OpcodeMap.decodeByte_eq_none.1 hd k)
  | some j => rw [OpcodeMap.byte_injective hm (OpcodeMap.byte_of_decodeByte hd)]

/-- Settles O4: a mnemonic found has the byte, and injectivity makes it the one that was meant. -/
theorem opcodeByteNamesItsMnemonic : Obligations.OpcodeByteNamesItsMnemonic := by
  unfold Obligations.OpcodeByteNamesItsMnemonic
  refine fun m op hm => ⟨fun k => ⟨OpcodeMap.byte_of_decodeByte, ?_⟩, OpcodeMap.decodeByte_eq_none⟩
  rintro rfl
  exact OpcodeMap.decodeByte_byte hm k

/-! ## The operand bytes -/

/-- Operand bytes of the right number are read whole, whatever they are. -/
theorem takeOperand_all {w : Nat} {bs : List Byte} (h : bs.length = w) :
    takeOperand w bs = some (littleEndian bs, []) := by
  subst h
  exact takeOperand_eq_some.2 ⟨le_rfl, littleEndian_lt bs, by rw [leBytes_littleEndian, List.append_nil]⟩

/-- A mnemonic's byte and operand bytes of the right number decode to that mnemonic with the number they stand for. -/
theorem decode_byte_operand {m : OpcodeMap} (hm : m.Wf) {k : Mnemonic} {bs : List Byte} (h : bs.length = k.width) :
    decode m (m.byte k :: bs) = .ok (k.withOperand (littleEndian bs), []) := by
  simp only [decode, OpcodeMap.decodeByte_byte hm, takeOperand_all h]

open Machine in
/-- Settles O6: the decoder never looks at the operand's value; the checks of an index (R104) and of a target (R143) are
raised cases of the instruction. -/
theorem operandBytesAreNeverIllegal : Obligations.OperandBytesAreNeverIllegal := by
  unfold Obligations.OperandBytesAreNeverIllegal
  refine ⟨fun m k bs hm h => ?_, fun s r _ hr => ?_, fun s a _ ha => ?_, fun s a _ ha hsp hv => ?_,
    fun s a v _ ha hsp hv h0 => ?_⟩
  · exact ⟨k.withOperand (littleEndian bs), Mnemonic.withOperand_mnemonic _ k, decode_byte_operand hm h⟩
  · exact ⟨Raised.raises (.loadReg r hr), Raised.raises (.storeReg r hr)⟩
  · exact Raised.raises (.jmp a ha)
  · exact Raised.raises (.jzTarget a hsp hv ha)
  · exact Raised.raises (.jnzTarget a v hsp hv h0 ha)

end Sys2Proof
end

section
/-! PROOF. Which transitions exist outside RUNNING (40_dispatch.md R96): no step, and from a halted core RESET only. -/

namespace Sys2Proof.Machine

variable {s t : State}

/-- START has a transition only in LOADED (R237). -/
theorem start_eq_none (hs : s.status ≠ .loaded) : start s = none :=
  if_neg hs

/-- A halted core is in neither of the states in which LOAD_PROGRAM and START are accepted. -/
theorem State.Halted.not_idle_not_loaded (hs : s.Halted) : s.status ≠ .idle ∧ s.status ≠ .loaded := by
  obtain h | h := hs <;> simp [h]

/-- The one transaction a halted core accepts is RESET (R238). -/
theorem State.Halted.eq_reset_of_transact {a : Transaction} (hs : s.Halted) (h : transact a s = some t) :
    a = .reset := by
  obtain ⟨hidle, hloaded⟩ := hs.not_idle_not_loaded
  cases a with
  | reset => rfl
  | loadProgram src => simp [transact, loadProgram_eq_none src hidle] at h
  | start => simp [transact, start_eq_none hloaded] at h

/-- Settles O14: a step that answers a next state began in RUNNING; LOAD_PROGRAM asks for IDLE and START for LOADED, and a
halted core is in neither. -/
theorem noStepOutsideRunning : Obligations.NoStepOutsideRunning := by
  unfold Obligations.NoStepOutsideRunning
  refine ⟨fun s hs t h => ?_, fun s t a hs h => hs.eq_reset_of_transact h⟩
  obtain ⟨hrunning, -⟩ := step_next h
  exact hs hrunning

end Sys2Proof.Machine
end

section
/-! PROOF. NOP, PUSH and POP (41_data_movement.md R120 to R122): their bytes, and each one's cases. -/

namespace Sys2Proof

/-! ## The operand bytes of PUSH -/

/-- The bytes of a word from bit `i` on, the lowest one split off. -/
theorem leBytes_toNat_shiftRight (w i : Nat) (v : Word) :
    leBytes (w + 1) (v.toNat >>> i) = v.extractLsb' i 8 :: leBytes w (v.toNat >>> (i + 8)) := by
  have htail : v.toNat >>> i / 256 = v.toNat >>> (i + 8) := by
    rw [Nat.shiftRight_add, Nat.shiftRight_eq_div_pow _ 8]
  rw [leBytes, htail]
  rfl

/-- The four bytes of a word, least significant first (R55). -/
theorem leBytes_four_toNat (v : Word) : leBytes 4 v.toNat =
    [v.extractLsb' 0 8, v.extractLsb' 8 8, v.extractLsb' 16 8, v.extractLsb' 24 8] := by
  rw [← Nat.shiftRight_zero (n := v.toNat)]
  simp only [leBytes_toNat_shiftRight, Nat.reduceAdd]
  rfl

/-- PUSH is its opcode byte and the bytes of its literal (R71, R121). -/
theorem encode_push (m : OpcodeMap) (v : Word) : encode m (.push v) =
    [m.push, v.extractLsb' 0 8, v.extractLsb' 8 8, v.extractLsb' 16 8, v.extractLsb' 24 8] :=
  congrArg (m.push :: ·) (leBytes_four_toNat v)

/-! ## The three rules -/

namespace Machine

/-- Settles O20: NOP has no operand bytes, and its one case is that it completes. -/
theorem nopOnlyAdvances : Obligations.NopOnlyAdvances := by
  unfold Obligations.NopOnlyAdvances
  exact ⟨fun _ => rfl, fun s => ⟨s.steps + 1, exec_of_completed .nop⟩⟩

/-- Settles O21: the check of R100 decides between PUSH's two cases, and below the capacity the invariant gives the cell
that is written. -/
theorem pushPutsTheLiteralOnTop : Obligations.PushPutsTheLiteralOnTop := by
  unfold Obligations.PushPutsTheLiteralOnTop
  refine ⟨encode_push, fun s v hs => ⟨fun hroom => ?_, fun hfull => ?_⟩⟩
  · have hcell : s.sp < s.st.length := hs.st_length ▸ hroom
    exact ⟨s.steps + 1, exec_of_completed (.push v hroom hcell)⟩
  · exact Raised.raises (.push v hfull.ge)

/-- Settles O22: POP has no operand bytes, the check of R101 decides between its two cases, and neither writes a cell. -/
theorem popDiscardsTheTop : Obligations.PopDiscardsTheTop := by
  unfold Obligations.PopDiscardsTheTop
  exact ⟨fun _ => rfl, fun s =>
    ⟨fun hlive => ⟨s.steps + 1, exec_of_completed (.pop hlive)⟩, fun hempty => Raised.raises (.pop hempty)⟩⟩

end Machine

end Sys2Proof
end

section
/-! PROOF. The jumps (42_control_flow.md): what JZ and JNZ pop (R144), and where JMP goes (R140). -/

namespace Sys2Proof.Machine

variable {s t : State} {i : Instr} {a : Nat}

/-! ## The value a conditional jump pops -/

/-- An instruction that does not end FAULTED completed: a raised kind enters FAULTED (R205). -/
theorem completed_of_not_faulted (h : exec i s = .next t) (ht : t.status ≠ .faulted) : Completed s i t := by
  obtain hc | ⟨k, -, rfl⟩ := exec_next h
  · exact hc
  · exact absurd rfl ht

/-- JZ's two completed cases, taken and not taken, pop one live value and write no cell. -/
theorem Completed.jz_pops (h : Completed s (.jz a) t) : t.sp + 1 = s.sp ∧ t.st = s.st := by
  cases h with
  | jzTaken _ hlive => exact ⟨Nat.sub_add_cancel hlive, rfl⟩
  | jzNot _ _ hlive => exact ⟨Nat.sub_add_cancel hlive, rfl⟩

/-- JNZ's two completed cases, taken and not taken, pop one live value and write no cell. -/
theorem Completed.jnz_pops (h : Completed s (.jnz a) t) : t.sp + 1 = s.sp ∧ t.st = s.st := by
  cases h with
  | jnzTaken _ _ hlive => exact ⟨Nat.sub_add_cancel hlive, rfl⟩
  | jnzNot _ hlive => exact ⟨Nat.sub_add_cancel hlive, rfl⟩

/-- Settles O29: a conditional jump that does not end FAULTED completed, and each completed case found a live value and
popped it. -/
theorem conditionalJumpsPopOneValue : Obligations.ConditionalJumpsPopOneValue := by
  unfold Obligations.ConditionalJumpsPopOneValue
  rintro s t a i (rfl | rfl) - h ht
  · exact (completed_of_not_faulted h ht).jz_pops
  · exact (completed_of_not_faulted h ht).jnz_pops

/-! ## A step at or past the end of the program -/

/-- Within the budget, a fetch at or past `prog_len` has no byte to read (R91). -/
theorem fetch_past_end (hb : budgetUsedUp s = false) (hs : s.progLen ≤ s.cfg.cProg) (hpc : s.progLen ≤ s.pc) :
    fetch s = .raised .invalidOpcode none := by
  have hd : decode s.cfg.opcodeMap (fetchWindow s) = .error .noByte := by
    rw [fetchWindow_empty hpc]
    rfl
  exact fetch_rejected hb hs hd

/-- A RUNNING core within its budget faults there, and no opcode is recorded. -/
theorem step_past_end (hr : s.status = .running) (hb : budgetUsedUp s = false) (hs : s.progLen ≤ s.cfg.cProg)
    (hpc : s.progLen ≤ s.pc) : step s = .next (s.enterFault .invalidOpcode none) :=
  step_raised hr (fetch_past_end hb hs hpc)

/-- Settles O26: the check of R143 decides between JMP's two cases; it does not look at `prog_len`, so the core may be at
or past the end of the program after it, and the next fetch finds no byte. -/
theorem jmpSetsThePc : Obligations.JmpSetsThePc := by
  unfold Obligations.JmpSetsThePc
  refine ⟨fun _ _ => rfl, fun s a => ⟨fun ha => ?_, fun ha => ?_⟩, fun s a hs hr hend ha => ?_⟩
  · exact ⟨s.steps + 1, exec_of_completed (.jmp a ha)⟩
  · exact Raised.raises (.jmp a ha)
  · refine ⟨_, exec_of_completed (.jmp a ha), fun hb => ?_⟩
    exact ⟨_, step_past_end hr hb hs.progLen_le hend, rfl, rfl, rfl⟩

end Sys2Proof.Machine
end

section
/-! PROOF. PRINT (44_output_and_halt.md R180): its byte, and its two cases. -/

namespace Sys2Proof.Machine

/-- Settles O36: the check of R101 decides between PRINT's two cases; with a live element the invariant gives the cell
whose word is emitted. -/
theorem printEmitsAndPopsTheTop : Obligations.PrintEmitsAndPopsTheTop := by
  unfold Obligations.PrintEmitsAndPopsTheTop
  refine ⟨fun _ => rfl, fun s hs => ⟨fun hlive => ?_, fun hempty => ?_⟩⟩
  · obtain ⟨v, hv⟩ := hs.cell (Nat.sub_one_lt_of_le hlive le_rfl)
    exact ⟨v, s.steps + 1, hv, exec_of_completed (.print v hlive hv)⟩
  · exact Raised.raises (.print hempty)

end Sys2Proof.Machine
end

section
/-! PROOF. How FAULTED is left (60_exceptions.md R206): by RESET only, which discards the run. -/

namespace Sys2Proof.Machine

/-- RESET is accepted in every state and goes to the reset state of the same parameters (R235). -/
theorem transact_reset (s : State) : transact .reset s = some (State.resetWith s.cfg) := rfl

/-- Settles O15: FAULTED is a halted status, so R96 leaves no step and no transaction but RESET, and RESET has one next
state. -/
theorem faultedIsLeftOnlyByReset : Obligations.FaultedIsLeftOnlyByReset := by
  unfold Obligations.FaultedIsLeftOnlyByReset
  obtain ⟨hnoStep, honlyReset⟩ := noStepOutsideRunning
  refine fun s hs => ⟨hnoStep s (by simp [hs]), fun a t h => ?_⟩
  obtain rfl : a = .reset := honlyReset s t a (.inr hs) h
  rw [transact_reset] at h
  exact ⟨rfl, (Option.some.inj h).symm⟩

end Sys2Proof.Machine
end

section
/-! PROOF. The encoder and the decoder (30_encoding.md): each undoes the other, for one instruction and for a program, and
what the operand bytes stand for. -/

namespace Sys2Proof

variable {m : OpcodeMap} {i : Instr} {k : Mnemonic} {v : Nat} {bs rest : List Byte}

/-! ## Operand values -/

/-- A value that fits the operand field is the operand it is made into. -/
theorem Mnemonic.operand_withOperand (hv : v < 256 ^ k.width) : (k.withOperand v).operand = v := by
  cases k with
  | push => exact (BitVec.toNat_ofNat v 32).trans (Nat.mod_eq_of_lt hv)
  | load | store | jmp | jz | jnz => rfl
  | nop | pop | add | sub | mul | div | print | stop => exact (Nat.lt_one_iff.1 hv).symm

/-- A mnemonic with a value that fits its field is a well-formed instruction. -/
theorem Mnemonic.withOperand_wf (hv : v < 256 ^ k.width) : (k.withOperand v).wf = true := by
  rw [Instr.wf_iff, Mnemonic.operand_withOperand hv, Mnemonic.withOperand_mnemonic]
  exact hv

/-! ## One instruction -/

/-- The decoder accepts exactly an opcode byte of the map with an operand of its width after it. -/
theorem decode_ok : decode m bs = .ok (i, rest) ↔
    ∃ op tail k v, bs = op :: tail ∧ m.decodeByte op = some k ∧ takeOperand k.width tail = some (v, rest) ∧
      i = k.withOperand v := by
  cases bs with
  | nil => simp [decode]
  | cons op tail =>
    cases hk : m.decodeByte op with
    | none => simp [decode, hk]
    | some k =>
      cases ho : takeOperand k.width tail with
      | none => simp [decode, hk, ho]
      | some p => simp [decode, hk, ho, Prod.ext_iff, and_comm, eq_comm]

/-- The decoder gives an encoded instruction back and leaves the bytes after it. -/
theorem decode_encode_append (hm : m.Wf) (hi : i.wf = true) (rest : List Byte) :
    decode m (encode m i ++ rest) = .ok (i, rest) := by
  have ho : takeOperand i.mnemonic.width (leBytes i.mnemonic.width i.operand ++ rest) = some (i.operand, rest) :=
    takeOperand_eq_some.2 ⟨by simp, i.wf_iff.1 hi, rfl⟩
  exact decode_ok.2 ⟨_, _, _, _, rfl, OpcodeMap.decodeByte_byte hm _, ho, i.withOperand_operand.symm⟩

/-- The decoder reads well-formed instructions only, and from their own encoding; the map need not be injective. -/
theorem wf_and_eq_encode_of_decode (h : decode m bs = .ok (i, rest)) : i.wf = true ∧ bs = encode m i ++ rest := by
  obtain ⟨op, tail, k, v, rfl, hk, ho, rfl⟩ := decode_ok.1 h
  obtain ⟨-, hv, rfl⟩ := takeOperand_eq_some.1 ho
  refine ⟨Mnemonic.withOperand_wf hv, ?_⟩
  rw [encode, Mnemonic.withOperand_mnemonic, Mnemonic.operand_withOperand hv, OpcodeMap.byte_of_decodeByte hk]
  rfl

/-- Settles O1: the map gives the mnemonic of the opcode byte back, and a well-formed operand fits the bytes that are read
for it. -/
theorem decodeOfEncodeGivesTheInstruction : Obligations.DecodeOfEncodeGivesTheInstruction := by
  unfold Obligations.DecodeOfEncodeGivesTheInstruction
  exact fun m i rest hm hi => decode_encode_append hm hi rest

/-- Settles O2: the decoder reads the number the operand bytes stand for, and that number gives them back. -/
theorem decodedBytesAreTheEncoding : Obligations.DecodedBytesAreTheEncoding := by
  unfold Obligations.DecodedBytesAreTheEncoding
  exact fun m bs i rest h => wf_and_eq_encode_of_decode h

/-! ## A program -/

/-- Bytes that begin with an instruction decode to it and to the instructions of the bytes after it. -/
theorem decodeProgram_succ_of_decode {fuel : Nat} {is : List Instr} (h : decode m bs = .ok (i, rest))
    (hrest : decodeProgram m fuel rest = .ok is) : decodeProgram m (fuel + 1) bs = .ok (i :: is) := by
  cases bs with
  | nil => cases h
  | cons b bs => simp only [decodeProgram, h, hrest]

/-- A program's bytes decode to it under any fuel that bounds their number. -/
theorem decodeProgram_encodeProgram (hm : m.Wf) {is : List Instr} (hwf : ∀ i ∈ is, i.wf = true) {fuel : Nat}
    (hfuel : (encodeProgram m is).length ≤ fuel) : decodeProgram m fuel (encodeProgram m is) = .ok is := by
  induction is generalizing fuel with
  | nil => simp [encodeProgram, decodeProgram]
  | cons i is ih =>
    obtain ⟨hi, his⟩ := List.forall_mem_cons.1 hwf
    have hcons : encodeProgram m (i :: is) = encode m i ++ encodeProgram m is := List.flatMap_cons
    rw [hcons] at hfuel ⊢
    have hlen : (encode m i ++ encodeProgram m is).length = i.length + (encodeProgram m is).length := by
      rw [List.length_append, Laws.EncodedLength.of_leBytes i m]
    have hpos := i.length_pos
    obtain ⟨fuel, rfl⟩ : ∃ n, fuel = n + 1 := ⟨fuel - 1, by omega⟩
    exact decodeProgram_succ_of_decode (decode_encode_append hm hi _) (ih his (by omega))

/-- Settles O3, by induction over the program: every instruction has at least its opcode byte, so the number of bytes is
fuel enough. -/
theorem programBytesDecodeInSequence : Obligations.ProgramBytesDecodeInSequence := by
  unfold Obligations.ProgramBytesDecodeInSequence
  exact fun m is hm hwf => decodeProgram_encodeProgram hm hwf le_rfl

/-! ## What operand bytes stand for -/

/-- Operand bytes of the right number are read as the number they stand for, and the bytes after them are left. -/
theorem takeOperand_append {w : Nat} (hbs : bs.length = w) (rest : List Byte) :
    takeOperand w (bs ++ rest) = some (littleEndian bs, rest) := by
  rw [takeOperand_eq_some, ← hbs, leBytes_littleEndian]
  exact ⟨by simp, littleEndian_lt bs, rfl⟩

/-- A mnemonic's byte with operand bytes of the right number decodes to that mnemonic with the number they stand for, and
the bytes after them are left. -/
theorem decode_byte_operand_append (hm : m.Wf) (hbs : bs.length = k.width) (rest : List Byte) :
    decode m (m.byte k :: (bs ++ rest)) = .ok (k.withOperand (littleEndian bs), rest) :=
  decode_ok.2 ⟨_, _, k, _, rfl, OpcodeMap.decodeByte_byte hm k, takeOperand_append hbs rest, rfl⟩

/-- Appending bit vectors adds the upper one's number, shifted, to the lower one's. -/
theorem toNat_append_byte {w : Nat} (hi : BitVec w) (lo : Byte) : (hi ++ lo).toNat = lo.toNat + 256 * hi.toNat := by
  rw [BitVec.toNat_append, ← Nat.shiftLeft_add_eq_or_of_lt lo.isLt, Nat.shiftLeft_eq, Nat.add_comm, Nat.mul_comm]

/-- One byte stands for its own number. -/
theorem littleEndian_one (b0 : Byte) : littleEndian [b0] = b0.toNat := rfl

/-- Two bytes stand for the half word with the first one in its low bits (R54). -/
theorem littleEndian_two (b0 b1 : Byte) : littleEndian [b0, b1] = (b1 ++ b0).toNat := by
  rw [toNat_append_byte]
  rfl

/-- Four bytes stand for the word with the first one in its low bits (R54). -/
theorem littleEndian_four (b0 b1 b2 b3 : Byte) : littleEndian [b0, b1, b2, b3] = (b3 ++ b2 ++ b1 ++ b0).toNat := by
  rw [toNat_append_byte, toNat_append_byte, toNat_append_byte]
  rfl

/-- Settles O5: the decoder reads the number of the operand bytes, which the byte order gives, and PUSH takes it as a
word. -/
theorem operandFieldsAreReadAsTheTableSays : Obligations.OperandFieldsAreReadAsTheTableSays := by
  unfold Obligations.OperandFieldsAreReadAsTheTableSays
  intro m b0 b1 b2 b3 rest hm
  have one {k : Mnemonic} (hk : k.width = 1) := decode_byte_operand_append hm (k := k) (bs := [b0]) hk.symm rest
  have two {k : Mnemonic} (hk : k.width = 2) := decode_byte_operand_append hm (k := k) (bs := [b0, b1]) hk.symm rest
  rw [littleEndian_one] at one
  rw [littleEndian_two] at two
  refine ⟨one (k := .load) rfl, one (k := .store) rfl, two (k := .jmp) rfl, two (k := .jz) rfl, two (k := .jnz) rfl, ?_⟩
  have four := decode_byte_operand_append hm (k := .push) (bs := [b0, b1, b2, b3]) rfl rest
  rw [littleEndian_four, Mnemonic.withOperand, BitVec.ofNat_toNat, BitVec.setWidth_eq] at four
  exact four

/-- Settles O7: the decoder runs on each of the nine words. -/
theorem exampleWordsDecode : Obligations.ExampleWordsDecode := by
  unfold Obligations.ExampleWordsDecode
  decide

end Sys2Proof
end

section
/-! PROOF. The front of the step (40_dispatch.md section 1): what a fetch answers for the bytes at the pc, and the steps that
follow from it. -/

namespace Sys2Proof.Machine

variable {s : State} {i : Instr} {k : Mnemonic} {m : OpcodeMap}

/-! ## Bytes of the store -/

/-- `n` bytes of the store from address `a` upward. -/
def State.bytesAt (s : State) (a n : Nat) : List Byte := (List.range n).map (fun k => Memory.read s.prog (a + k))

@[simp] theorem State.bytesAt_length (a n : Nat) : (s.bytesAt a n).length = n := by simp [State.bytesAt]

theorem State.bytesAt_getElem? {a n j : Nat} (hj : j < n) : (s.bytesAt a n)[j]? = some (Memory.read s.prog (a + j)) := by
  simp [State.bytesAt, hj]

theorem State.bytesAt_add (a n d : Nat) : s.bytesAt a (n + d) = s.bytesAt a n ++ s.bytesAt (a + n) d := by
  simp [State.bytesAt, List.range_add, Function.comp_def, Nat.add_assoc]

/-- A list that agrees with the store byte for byte is what stands there. -/
theorem State.eq_bytesAt {a : Nat} {bs : List Byte}
    (h : ∀ j, j < bs.length → bs[j]? = some (Memory.read s.prog (a + j))) : bs = s.bytesAt a bs.length := by
  refine List.ext_getElem? fun j => ?_
  by_cases hj : j < bs.length
  · rw [h j hj, State.bytesAt_getElem? hj]
  · rw [List.getElem?_eq_none (by omega), List.getElem?_eq_none (by simpa using hj)]

theorem State.readBytes_eq_bytesAt {a n : Nat} (h : a + n ≤ s.cfg.cProg) : s.readBytes a n = .ok (s.bytesAt a n) :=
  State.readBytes_ok h

/-- `MemRead` inside the store (R54). -/
theorem State.memRead_ok {a n : Nat} (h : a + n ≤ s.cfg.cProg) : s.memRead a n = .ok (littleEndian (s.bytesAt a n)) := by
  rw [State.memRead, State.readBytes_eq_bytesAt h]

/-- Settles O60: the bytes from the lowest address on, in the order the byte order gives them. -/
theorem memReadIsLittleEndian : Obligations.MemReadIsLittleEndian := by
  unfold Obligations.MemReadIsLittleEndian
  intro s a hs
  have hle := hs.progLen_le
  refine ⟨fun h => ?_, fun h => ?_, fun h => ?_⟩
  · rw [State.memRead_ok (h.trans hle), ← littleEndian_one]
    rfl
  · rw [State.memRead_ok (h.trans hle), ← littleEndian_two]
    rfl
  · rw [State.memRead_ok (h.trans hle), ← littleEndian_four]
    rfl

/-! ## The decoder's rejections -/

/-- The longest operand is PUSH's literal (R71). -/
theorem mnemonic_width_le (k : Mnemonic) : k.width ≤ 4 := by
  cases k <;> decide

theorem decode_unknownOpcode {op : Byte} {tail : List Byte} (h : m.decodeByte op = none) :
    decode m (op :: tail) = .error (.unknownOpcode op) := by
  simp only [decode, h]

theorem decode_truncatedOperand {op : Byte} {tail : List Byte} (h : m.decodeByte op = some k)
    (hlen : tail.length < k.width) : decode m (op :: tail) = .error (.truncatedOperand op) := by
  have ho : takeOperand k.width tail = none := if_neg hlen.not_ge
  simp only [decode, h, ho]

/-- Every rejection is InvalidOpcode with the first byte, when there is one (R91 to R93). -/
theorem rejected_of_decode {bs : List Byte} {e : DecodeError} (h : decode m bs = .error e) :
    rejected e = .raised .invalidOpcode bs.head? := by
  cases bs with
  | nil =>
    cases h
    rfl
  | cons op tail =>
    cases hk : m.decodeByte op with
    | none =>
      rw [decode_unknownOpcode hk] at h
      cases h
      rfl
    | some k =>
      by_cases hlen : tail.length < k.width
      · rw [decode_truncatedOperand hk hlen] at h
        cases h
        rfl
      · have ho : takeOperand k.width tail = some (littleEndian (tail.take k.width), tail.drop k.width) :=
          if_pos (not_lt.1 hlen)
        simp only [decode, hk, ho, reduceCtorEq] at h

/-! ## What a fetch answers -/

/-- A fetch that raises found the budget used up, or bytes that the decoder rejects. -/
theorem fetch_eq_raised {kind : FaultKind} {op : Option Byte} (h : fetch s = .raised kind op) :
    (budgetUsedUp s = true ∧ kind = .stepBudgetExceeded ∧ op = none) ∨
    (budgetUsedUp s = false ∧ kind = .invalidOpcode ∧ ∃ bs, fetchBytes s = .ok bs ∧ op = bs.head?) := by
  unfold fetch at h
  cases hb : budgetUsedUp s with
  | true =>
    rw [if_pos hb] at h
    cases h
    exact .inl ⟨rfl, rfl, rfl⟩
  | false =>
    rw [if_neg (by simp [hb])] at h
    cases hf : fetchBytes s with
    | error f => simp [hf] at h
    | ok bs =>
      cases hd : decode s.cfg.opcodeMap bs with
      | ok p => simp [hf, hd] at h
      | error e =>
        simp only [hf, hd, rejected_of_decode hd] at h
        cases h
        exact .inr ⟨rfl, rfl, bs, rfl, rfl⟩

/-- A fetch that answers an instruction had budget left and decoded it. -/
theorem fetch_eq_instr (h : fetch s = .instr i) :
    budgetUsedUp s = false ∧ ∃ bs rest, fetchBytes s = .ok bs ∧ decode s.cfg.opcodeMap bs = .ok (i, rest) := by
  unfold fetch at h
  cases hb : budgetUsedUp s with
  | true => simp [hb] at h
  | false =>
    rw [if_neg (by simp [hb])] at h
    cases hf : fetchBytes s with
    | error f => simp [hf] at h
    | ok bs =>
      cases hd : decode s.cfg.opcodeMap bs with
      | error e => simp [hf, hd, rejected_of_decode hd] at h
      | ok p =>
        simp only [hf, hd, Fetched.instr.injEq] at h
        subst h
        exact ⟨rfl, bs, p.2, rfl, hd⟩

/-- The instruction fetched is well formed, its bytes stand at the pc, and they end inside the loaded bytes. -/
theorem fetched_instr_stands_at_pc (hs : s.progLen ≤ s.cfg.cProg) (h : fetch s = .instr i) :
    ∃ rest, fetchWindow s = encode s.cfg.opcodeMap i ++ rest ∧ s.pc + i.length ≤ s.progLen := by
  obtain ⟨-, bs, rest, hf, hd⟩ := fetch_eq_instr h
  obtain rfl : fetchWindow s = bs := Except.ok.inj ((fetchBytes_eq hs).symm.trans hf)
  obtain ⟨-, hbs⟩ := wf_and_eq_encode_of_decode hd
  refine ⟨rest, hbs, ?_⟩
  have hlen := congrArg List.length hbs
  rw [fetchWindow_length, List.length_append, Laws.EncodedLength.of_leBytes i] at hlen
  have hpos := i.length_pos
  omega

section Loaded

variable (hb : budgetUsedUp s = false) (hs : s.progLen ≤ s.cfg.cProg) (hpc : s.pc < s.progLen)
include hb hs hpc

/-- A byte that is in no entry of the map is recorded (R92). -/
theorem fetch_unknownOpcode (hop : s.cfg.opcodeMap.decodeByte (Memory.read s.prog s.pc) = none) :
    fetch s = .raised .invalidOpcode (some (Memory.read s.prog s.pc)) := by
  have hd : decode s.cfg.opcodeMap (fetchWindow s) = .error (.unknownOpcode (Memory.read s.prog s.pc)) := by
    rw [fetchWindow_cons hpc, decode_unknownOpcode hop]
  exact fetch_rejected hb hs hd

/-- An operand that runs past the loaded bytes records the opcode byte before it (R93). -/
theorem fetch_truncatedOperand (hop : s.cfg.opcodeMap.decodeByte (Memory.read s.prog s.pc) = some k)
    (hend : s.progLen < s.pc + 1 + k.width) :
    fetch s = .raised .invalidOpcode (some (Memory.read s.prog s.pc)) := by
  have hd : decode s.cfg.opcodeMap (fetchWindow s) = .error (.truncatedOperand (Memory.read s.prog s.pc)) := by
    rw [fetchWindow_cons hpc]
    refine decode_truncatedOperand hop ?_
    simp only [List.length_map, List.length_range]
    omega
  exact fetch_rejected hb hs hd

/-- An operand inside the loaded bytes is read from the address after the opcode's (R94). -/
theorem fetch_operand (hop : s.cfg.opcodeMap.decodeByte (Memory.read s.prog s.pc) = some k)
    (hend : s.pc + 1 + k.width ≤ s.progLen) :
    fetch s = .instr (k.withOperand (littleEndian (s.bytesAt (s.pc + 1) k.width))) := by
  obtain ⟨d, hd⟩ : ∃ d, min 4 (s.progLen - s.pc - 1) = k.width + d :=
    ⟨_, (Nat.add_sub_cancel' (by have := mnemonic_width_le k; omega)).symm⟩
  have hw : fetchWindow s = Memory.read s.prog s.pc ::
      (s.bytesAt (s.pc + 1) k.width ++ s.bytesAt (s.pc + 1 + k.width) d) := by
    rw [← State.bytesAt_add, ← hd, fetchWindow_cons hpc]
    rfl
  have ho := takeOperand_append (s.bytesAt_length (s.pc + 1) k.width) (s.bytesAt (s.pc + 1 + k.width) d)
  exact fetch_decoded hb hs (decode_ok.2 ⟨_, _, k, _, hw, hop, ho, rfl⟩)

end Loaded

/-- Settles O12: both sides check the budget, then the pc, then the opcode byte, then the operand's end, and answer alike in
each of the five cases. -/
theorem fetchFollowsThePseudocode : Obligations.FetchFollowsThePseudocode := by
  unfold Obligations.FetchFollowsThePseudocode
  intro s inv
  have hs := inv.progLen_le
  cases hb : budgetUsedUp s with
  | true => simp [fetch_budget hb, fetchAsWritten, hb]
  | false =>
    by_cases hpc : s.progLen ≤ s.pc
    · simp [fetch_past_end hb hs hpc, fetchAsWritten, hb, hpc]
    · have hlt : s.pc < s.progLen := not_le.1 hpc
      have hbyte : s.readByte s.pc = .ok (Memory.read s.prog s.pc) := State.readByte_ok (by omega)
      cases hop : s.cfg.opcodeMap.decodeByte (Memory.read s.prog s.pc) with
      | none => simp [fetch_unknownOpcode hb hs hlt hop, fetchAsWritten, hb, hpc, hbyte, hop]
      | some k =>
        by_cases hend : s.progLen < s.pc + 1 + k.width
        · simp [fetch_truncatedOperand hb hs hlt hop hend, fetchAsWritten, hb, hpc, hbyte, hop, hend]
        · have hread := State.memRead_ok (s := s) (a := s.pc + 1) (n := k.width) (by omega)
          simp [fetch_operand hb hs hlt hop (not_lt.1 hend), fetchAsWritten, hb, hpc, hbyte, hop, hend, hread]

/-! ## Steps that raise before execution -/

theorem budgetUsedUp_iff {b : Nat} (h : s.cfg.stepBudget = some b) : budgetUsedUp s = true ↔ b ≤ s.steps := by
  simp [budgetUsedUp, h]

/-- Settles O13: in each clause the fetch raises, and fault entry is the whole effect. -/
theorem stepFaultsInTheOrderOfTheTable : Obligations.StepFaultsInTheOrderOfTheTable := by
  unfold Obligations.StepFaultsInTheOrderOfTheTable
  intro s inv hr
  have hs := inv.progLen_le
  refine ⟨fun b hbudget hle => ?_, fun hb hpc => ?_, fun hb hpc hop => ?_, fun k hb hpc hop hend => ?_⟩
  · exact step_raised hr (fetch_budget ((budgetUsedUp_iff hbudget).2 hle))
  · exact step_past_end hr hb hs hpc
  · exact step_raised hr (fetch_unknownOpcode hb hs hpc hop)
  · exact step_raised hr (fetch_truncatedOperand hb hs hpc hop hend)

/-! ## Steps that execute -/

/-- The window begins with the bytes of an instruction that stands at the pc inside the loaded bytes. -/
theorem fetchWindow_of_stands_at_pc (hend : s.pc + i.length ≤ s.progLen)
    (hbytes : encode m i = s.bytesAt s.pc i.length) : ∃ rest, fetchWindow s = encode m i ++ rest := by
  obtain ⟨d, hd⟩ : ∃ d, min maxInstrLength (s.progLen - s.pc) = i.length + d :=
    ⟨_, (Nat.add_sub_cancel' (by have := i.length_le; omega)).symm⟩
  refine ⟨s.bytesAt (s.pc + i.length) d, ?_⟩
  rw [hbytes, ← State.bytesAt_add, ← hd]
  rfl

/-- Settles O11: the window begins with the instruction's encoding, which decodes to it. -/
theorem stepRunsTheInstructionAtThePc : Obligations.StepRunsTheInstructionAtThePc := by
  unfold Obligations.StepRunsTheInstructionAtThePc
  intro s i inv hr hb hi hend hbytes
  have hs := inv.progLen_le
  obtain ⟨⟨-, -, -, -, hmap⟩, -⟩ := inv
  have hlen := Laws.EncodedLength.of_leBytes i s.cfg.opcodeMap
  have hstands : encode s.cfg.opcodeMap i = s.bytesAt s.pc i.length := by
    rw [← hlen] at hbytes ⊢
    exact State.eq_bytesAt hbytes
  obtain ⟨rest, hw⟩ := fetchWindow_of_stands_at_pc hend hstands
  exact step_instr hr (fetch_decoded hb hs (hw ▸ decode_encode_append hmap hi rest))

/-- The five bytes of a table word stand at the pc where they were placed. -/
theorem bytesAt_withFetchWord (hmem : Memory.Wf s.prog) (hroom : s.pc + 5 ≤ s.cfg.cProg) (nbits w : Nat) :
    (s.withFetchWord nbits w).bytesAt s.pc 5 = tableBytes nbits w := by
  have hlen := tableBytes_length nbits w
  have hfit : (tableBytes nbits w).take (s.cfg.cProg - s.pc) = tableBytes nbits w := List.take_of_length_le (by omega)
  rw [← hlen]
  refine (State.eq_bytesAt fun j hj => ?_).symm
  simp only [State.withFetchWord, placeAtPc, hfit, Memory.read_writeBytes hmem]
  rw [if_pos (by omega), Nat.add_sub_cancel_left, List.getD_eq_getElem _ _ hj, List.getElem?_eq_getElem hj]

/-- The five bytes are all that the next fetch reads. -/
theorem fetchBytes_withFetchWord (hmem : Memory.Wf s.prog) (hroom : s.pc + 5 ≤ s.cfg.cProg) (nbits w : Nat) :
    fetchBytes (s.withFetchWord nbits w) = .ok (tableBytes nbits w) := by
  have hcount : min maxInstrLength ((s.withFetchWord nbits w).progLen - s.pc) = 5 := by
    simp only [State.withFetchWord, placeAtPc, List.length_take, tableBytes_length, maxInstrLength]
    omega
  rw [← bytesAt_withFetchWord hmem hroom, ← hcount]
  have hin : s.pc + min maxInstrLength ((s.withFetchWord nbits w).progLen - s.pc) ≤ s.cfg.cProg := by
    rw [hcount]
    exact hroom
  exact State.readBytes_eq_bytesAt hin

/-- Settles O59: the next fetch reads the five bytes placed, and decodes them as the table does. -/
theorem placedInstructionRunsNext : Obligations.PlacedInstructionRunsNext := by
  unfold Obligations.PlacedInstructionRunsNext
  intro s nbits w i hmem hroom hb hmap hword
  refine step_instr rfl ?_
  have hb' : budgetUsedUp (s.withFetchWord nbits w) = false := hb
  have hmap' : (s.withFetchWord nbits w).cfg.opcodeMap = OpcodeMap.default := hmap
  unfold decodeTableWord at hword
  cases hd : decode OpcodeMap.default (tableBytes nbits w) with
  | error e => simp [hd] at hword
  | ok p =>
    simp only [hd, Option.some.injEq] at hword
    subst hword
    simp [fetch, hb', fetchBytes_withFetchWord hmem hroom, hmap', hd]

end Sys2Proof.Machine
end

section
/-! PROOF. What one instruction changes, field by field, and the frames of the four groups (41_data_movement.md to
44_output_and_halt.md). -/

namespace Sys2Proof.Machine

variable {s t : State} {i : Instr} {k : FaultKind}

/-! ## A completed instruction, field by field -/

/-- The instruction is counted (R94). -/
theorem Completed.steps_eq (h : Completed s i t) : t.steps = s.steps + 1 := by
  cases h with
  | _ => rfl

/-- The fault record is not touched. -/
theorem Completed.fault_eq (h : Completed s i t) : t.fault = s.fault := by
  cases h with
  | _ => rfl

/-- Only STOP sets the status, to STOPPED. -/
theorem Completed.status_eq (h : Completed s i t) : t.status = if i = .stop then .stopped else s.status := by
  cases h with
  | _ => rfl

theorem Completed.status_eq_of_ne_stop (h : Completed s i t) (hi : i ≠ .stop) : t.status = s.status := by
  rw [h.status_eq, if_neg hi]

/-- Only PRINT emits (R182). -/
theorem Completed.out_eq (h : Completed s i t) (hi : i ≠ .print) : t.out = s.out := by
  cases h with
  | print => exact absurd rfl hi
  | _ => rfl

/-- PRINT emits the TOS. -/
theorem Completed.print_out (h : Completed s .print t) : ∃ v, s.st[s.sp - 1]? = some v ∧ t.out = s.out ++ [v] := by
  cases h with
  | print v _ hv => exact ⟨v, hv, rfl⟩

/-- The words an instruction pops were there, and `sp` moves by its net effect (R103). -/
theorem Completed.sp_eq (h : Completed s i t) :
    wordsPopped i ≤ s.sp ∧ t.sp = s.sp - wordsPopped i + wordsPushed i := by
  cases h with
  | nop | stop | jmp | push | load => exact ⟨Nat.zero_le _, rfl⟩
  | pop hlive | store _ _ _ _ hlive | jzTaken _ hlive | jzNot _ _ hlive | jnzTaken _ _ hlive | jnzNot _ hlive
  | print _ hlive => exact ⟨hlive, rfl⟩
  | add _ _ htwo | sub _ _ htwo | mul _ _ htwo | div _ _ htwo =>
    refine ⟨htwo, ?_⟩
    simp only [wordsPopped, wordsPushed]
    omega

/-- An instruction that pushes nothing writes no cell. -/
theorem Completed.st_eq (h : Completed s i t) (hi : wordsPushed i = 0) : t.st = s.st := by
  cases h with
  | push | load | add | sub | mul | div => cases hi
  | _ => rfl

/-- The one cell an instruction can write is the one its first push goes to, after its pops. -/
theorem Completed.st_getElem? (h : Completed s i t) {j : Nat} (hj : j ≠ s.sp - wordsPopped i) : t.st[j]? = s.st[j]? := by
  cases h with
  | push | load | add | sub | mul | div => exact List.getElem?_set_ne hj.symm
  | _ => rfl

/-- The cells and the registers keep their number. -/
theorem Completed.lengths_eq (h : Completed s i t) : t.st.length = s.st.length ∧ t.x.length = s.x.length := by
  cases h with
  | push | load | add | sub | mul | div => exact ⟨List.length_set, rfl⟩
  | store => exact ⟨rfl, List.length_set⟩
  | _ => exact ⟨rfl, rfl⟩

/-- The pc goes to the byte after the instruction, or to a jump's target, which is below `C_PROG` (R93, R143). -/
theorem Completed.pc_eq (h : Completed s i t) : t.pc = s.pc + i.length ∨ t.pc < s.cfg.cProg := by
  cases h with
  | jmp _ ha | jzTaken _ _ _ ha | jnzTaken _ _ _ _ _ ha => exact .inr ha
  | _ => exact .inl rfl

/-- The stack stays within its capacity (R100). -/
theorem Completed.sp_le (h : Completed s i t) (hs : s.sp ≤ s.cfg.cStack) : t.sp ≤ s.cfg.cStack := by
  cases h with
  | push _ hroom | load _ _ _ _ hroom => exact hroom
  | nop | stop | jmp => exact hs
  | _ => exact (Nat.sub_le s.sp 1).trans hs

/-! ## The frames -/

/-- What no instruction changes, whether it completes or raises. -/
theorem exec_keeps_program (h : exec i s = .next t) :
    (∀ a, t.readByte a = s.readByte a) ∧ t.progLen = s.progLen ∧ t.cfg = s.cfg :=
  have hp := exec_sameProgram h
  ⟨hp.readByte_eq, hp.progLen, hp.cfg⟩

/-- Settles O42: the five write at most the cell at `sp`, only PUSH and LOAD push a word, and only STORE writes a
register. -/
theorem dataMovementFrame : Obligations.DataMovementFrame := by
  unfold Obligations.DataMovementFrame
  intro s t i hi h
  obtain ⟨hread, hlen, hcfg⟩ := exec_keeps_program h
  refine ⟨hread, hlen, hcfg, ?_⟩
  obtain hc | ⟨k, -, rfl⟩ := exec_next h
  · have hstop : i ≠ .stop := by rintro rfl; simp at hi
    have hprint : i ≠ .print := by rintro rfl; simp at hi
    have hpops : wordsPushed i = 0 ∨ wordsPopped i = 0 := by
      obtain rfl | ⟨v, rfl⟩ | rfl | ⟨r, rfl⟩ | ⟨r, rfl⟩ := hi <;> simp [wordsPushed, wordsPopped]
    refine ⟨hc.out_eq hprint, fun j hj => ?_, fun j hj => ?_, ?_, ?_, .inl ⟨hc.status_eq_of_ne_stop hstop, hc.fault_eq⟩⟩
    · by_cases hstore : ∀ r, i ≠ .store r
      · rw [hc.x_eq hstore]
      · simp only [not_forall, not_not] at hstore
        obtain ⟨r, rfl⟩ := hstore
        exact hc.store_x_getElem? fun hjr => hj (by rw [hjr])
    · obtain hnone | hzero := hpops
      · rw [hc.st_eq hnone]
      · exact hc.st_getElem? (by rw [hzero]; exact hj)
    · rintro (rfl | rfl | ⟨r, rfl⟩) <;> exact hc.st_eq rfl
    · rintro rfl
      exact hc.sp_eq.2
  · exact ⟨rfl, fun _ _ => rfl, fun _ _ => rfl, fun _ => rfl, fun _ => rfl, .inr ⟨rfl, rfl, rfl, rfl, rfl, rfl⟩⟩

/-- Settles O43: a jump pushes nothing, writes no register and emits nothing. -/
theorem controlFlowFrame : Obligations.ControlFlowFrame := by
  unfold Obligations.ControlFlowFrame
  intro s t i a hi h
  obtain ⟨hread, hlen, hcfg⟩ := exec_keeps_program h
  refine ⟨hread, hlen, hcfg, ?_⟩
  obtain hc | ⟨k, -, rfl⟩ := exec_next h
  · have hstop : i ≠ .stop := by rintro rfl; simp at hi
    have hprint : i ≠ .print := by rintro rfl; simp at hi
    have hstore : ∀ r, i ≠ .store r := by rintro r rfl; simp at hi
    have hpush : wordsPushed i = 0 := by obtain rfl | rfl | rfl := hi <;> rfl
    refine ⟨hc.out_eq hprint, hc.x_eq hstore, hc.st_eq hpush, ?_, .inl ⟨hc.status_eq_of_ne_stop hstop, hc.fault_eq⟩⟩
    rintro rfl
    exact hc.sp_eq.2
  · exact ⟨rfl, rfl, rfl, fun _ => rfl, .inr ⟨rfl, rfl, rfl, rfl⟩⟩

/-- The four arithmetic instructions move `sp` down by one and the pc up by one. -/
theorem Completed.arithmetic_sp_pc (h : Completed s i t) (hi : i = .add ∨ i = .sub ∨ i = .mul ∨ i = .div) :
    t.sp + 1 = s.sp ∧ t.pc = s.pc + 1 := by
  cases h with
  | add _ _ htwo | sub _ _ htwo | mul _ _ htwo | div _ _ htwo => exact ⟨Nat.sub_add_cancel (by omega), rfl⟩
  | _ => simp at hi

/-- Settles O44: the four pop two words, so the one cell they write is at `sp - 2`. -/
theorem arithmeticFrame : Obligations.ArithmeticFrame := by
  unfold Obligations.ArithmeticFrame
  intro s t i hi h
  obtain ⟨hread, hlen, hcfg⟩ := exec_keeps_program h
  refine ⟨hread, hlen, hcfg, ?_⟩
  obtain hc | ⟨k, -, rfl⟩ := exec_next h
  · have hstop : i ≠ .stop := by rintro rfl; simp at hi
    have hprint : i ≠ .print := by rintro rfl; simp at hi
    have hstore : ∀ r, i ≠ .store r := by rintro r rfl; simp at hi
    have hpop : wordsPopped i = 2 := by obtain rfl | rfl | rfl | rfl := hi <;> rfl
    refine ⟨hc.out_eq hprint, hc.x_eq hstore, fun j hj => hc.st_getElem? ?_,
      .inl ⟨hc.status_eq_of_ne_stop hstop, hc.fault_eq, hc.arithmetic_sp_pc hi⟩⟩
    have htwo := hc.sp_eq.1
    omega
  · exact ⟨rfl, rfl, fun _ _ => rfl, .inr ⟨rfl, rfl, rfl, rfl, rfl⟩⟩

/-- Settles O45: neither pushes a word or writes a register, STOP has no raised case, and PRINT does not set the status. -/
theorem outputAndHaltFrame : Obligations.OutputAndHaltFrame := by
  unfold Obligations.OutputAndHaltFrame
  intro s t i hi h
  obtain ⟨hread, hlen, hcfg⟩ := exec_keeps_program h
  refine ⟨hread, hlen, hcfg, ?_⟩
  obtain hc | ⟨k, hr, rfl⟩ := exec_next h
  · have hstore : ∀ r, i ≠ .store r := by rintro r rfl; simp at hi
    have hpush : wordsPushed i = 0 := by obtain rfl | rfl := hi <;> rfl
    refine ⟨hc.x_eq hstore, hc.st_eq hpush, ?_, ?_⟩
    · rintro rfl
      exact ⟨hc.out_eq nofun, hc.sp_eq.2, hc.fault_eq, hc.status_eq⟩
    · rintro rfl
      exact .inl ⟨hc.status_eq_of_ne_stop nofun, hc.fault_eq⟩
  · refine ⟨rfl, rfl, ?_, fun _ => .inr ⟨rfl, rfl, rfl, rfl, rfl⟩⟩
    rintro rfl
    cases hr

/-! ## The net effect on the stack -/

/-- StackUnderflow is raised only without the words the instruction pops (R101). -/
theorem Raised.underflow (h : Raised s i .stackUnderflow) : s.sp < wordsPopped i := by
  cases h with
  | pop h0 | storeEmpty _ _ h0 | jzEmpty _ h0 | jnzEmpty _ h0 | print h0 => exact Nat.lt_one_iff.2 h0
  | add h2 | sub h2 | mul h2 | divEmpty h2 => exact h2

/-- StackOverflow is raised only by a net push on a full stack (R100). -/
theorem Raised.overflow (h : Raised s i .stackOverflow) :
    wordsPushed i = wordsPopped i + 1 ∧ s.cfg.cStack ≤ s.sp := by
  cases h with
  | push _ hfull | loadFull _ _ hfull => exact ⟨rfl, hfull⟩

/-- Settles O46: a completed instruction had the words it pops and leaves the fault record, which is clear in RUNNING; a
raised one names its condition. -/
theorem netStackEffect : Obligations.NetStackEffect := by
  unfold Obligations.NetStackEffect
  intro s t i hs hr h
  obtain hc | ⟨k, hk, rfl⟩ := exec_next h
  · obtain ⟨hpop, hsp⟩ := hc.sp_eq
    have hkind : t.fault.kind = none := by
      rw [hc.fault_eq, hs.fault_clear (by simp [hr])]
      rfl
    exact ⟨fun _ => ⟨hpop, hsp⟩, fun hlt => absurd hpop hlt.not_ge, by simp [hkind], by simp [hkind]⟩
  · refine ⟨fun hne => absurd rfl hne, fun _ => rfl, ?_, ?_⟩
    · rintro ⟨⟩
      exact hk.underflow
    · rintro ⟨⟩
      exact ⟨hk.overflow.1, le_antisymm hs.sp_le hk.overflow.2⟩

end Sys2Proof.Machine
end

section
/-! PROOF. What one step does: it takes a fault or completes the instruction it fetched (40_dispatch.md section 1). From it:
precise faults and their record (60_exceptions.md section 1), the count, the life cycle and the output. -/

namespace Sys2Proof.Machine

variable {s t : State} {i : Instr} {k : FaultKind}

/-! ## The two ways a step ends -/

/-- No instruction raises LoadError. -/
theorem Raised.ne_loadError (h : Raised s i k) : k ≠ .loadError := by
  cases h with
  | _ => exact nofun

/-- A fetch raises StepBudgetExceeded or InvalidOpcode, never LoadError. -/
theorem fetch_raised_ne_loadError {op : Option Byte} (h : fetch s = .raised k op) : k ≠ .loadError := by
  obtain ⟨-, rfl, -⟩ | ⟨-, rfl, -⟩ := fetch_eq_raised h <;> exact nofun

/-- A step of a RUNNING core enters a fault, or completes the instruction it fetched. -/
theorem step_faults_or_completes (h : step s = .next t) :
    s.status = .running ∧
    ((∃ k op, k ≠ .loadError ∧ t = s.enterFault k op) ∨ (∃ i, fetch s = .instr i ∧ Completed s i t)) := by
  obtain ⟨hr, ⟨k, op, hf, rfl⟩ | ⟨i, hf, hi⟩⟩ := step_next h
  · exact ⟨hr, .inl ⟨k, op, fetch_raised_ne_loadError hf, rfl⟩⟩
  · obtain hc | ⟨k, hk, rfl⟩ := exec_next hi
    · exact ⟨hr, .inr ⟨i, hf, hc⟩⟩
    · exact ⟨hr, .inl ⟨k, _, hk.ne_loadError, rfl⟩⟩

/-- From RUNNING a completed instruction leads to RUNNING or, when it is STOP, to STOPPED. -/
theorem Completed.running_or_stopped (h : Completed s i t) (hr : s.status = .running) :
    t.status = .running ∨ (t.status = .stopped ∧ i = .stop) := by
  rw [h.status_eq, hr]
  by_cases hi : i = .stop
  · exact .inr ⟨if_pos hi, hi⟩
  · exact .inl (if_neg hi)

theorem Completed.not_faulted (h : Completed s i t) (hr : s.status = .running) : t.status ≠ .faulted := by
  obtain ht | ⟨ht, -⟩ := h.running_or_stopped hr <;> simp [ht]

/-! ## Faults -/

/-- Settles O16: a completed instruction does not end FAULTED, so the step is a fault entry. -/
theorem faultsArePrecise : Obligations.FaultsArePrecise := by
  unfold Obligations.FaultsArePrecise
  rintro s t - h ht
  obtain ⟨hr, ⟨k, op, hk, rfl⟩ | ⟨i, -, hc⟩⟩ := step_faults_or_completes h
  · exact ⟨rfl, rfl, k, rfl, hk⟩
  · exact absurd ht (hc.not_faulted hr)

/-- What R201 lets a fault record say of the opcode: the byte at the pc, exactly when one was fetched. -/
def RecordsFetchedOpcode (s t : State) : Prop :=
  (t.fault.opcodeValid = true ↔ budgetUsedUp s = false ∧ s.pc < s.progLen) ∧
  (t.fault.opcodeValid = true → t.fault.opcode = Memory.read s.prog s.pc) ∧
  (t.fault.opcodeValid = false → t.fault.opcode = 0)

/-- Without a fetched byte the record holds none. -/
theorem recordsFetchedOpcode_none (h : ¬(budgetUsedUp s = false ∧ s.pc < s.progLen)) :
    RecordsFetchedOpcode s (s.enterFault k none) :=
  ⟨⟨nofun, fun hn => absurd hn h⟩, nofun, fun _ => rfl⟩

/-- With a fetched byte the record holds it. -/
theorem recordsFetchedOpcode_some (hb : budgetUsedUp s = false) (hpc : s.pc < s.progLen) :
    RecordsFetchedOpcode s (s.enterFault k (some (Memory.read s.prog s.pc))) :=
  ⟨⟨fun _ => ⟨hb, hpc⟩, fun _ => rfl⟩, fun _ => rfl, nofun⟩

/-- A fault in the front of the step records the byte at the pc, unless it came before the fetch. -/
theorem recordsFetchedOpcode_of_raised {op : Option Byte} (hs : s.progLen ≤ s.cfg.cProg) (h : fetch s = .raised k op) :
    RecordsFetchedOpcode s (s.enterFault k op) := by
  obtain ⟨hb, -, rfl⟩ | ⟨hb, -, bs, hbs, rfl⟩ := fetch_eq_raised h
  · exact recordsFetchedOpcode_none (by simp [hb])
  · obtain rfl : fetchWindow s = bs := Except.ok.inj ((fetchBytes_eq hs).symm.trans hbs)
    by_cases hpc : s.pc < s.progLen
    · rw [fetchWindow_cons hpc]
      exact recordsFetchedOpcode_some hb hpc
    · rw [fetchWindow_empty (not_lt.1 hpc)]
      exact recordsFetchedOpcode_none (by simp [hpc])

/-- The map's byte of the fetched instruction is the byte at the pc. -/
theorem byte_of_fetched_instr (hs : s.progLen ≤ s.cfg.cProg) (h : fetch s = .instr i) :
    s.pc < s.progLen ∧ s.cfg.opcodeMap.byte i.mnemonic = Memory.read s.prog s.pc := by
  obtain ⟨rest, hw, hend⟩ := fetched_instr_stands_at_pc hs h
  have hpc : s.pc < s.progLen := (Nat.lt_add_of_pos_right i.length_pos).trans_le hend
  rw [fetchWindow_cons hpc, encode, List.cons_append] at hw
  exact ⟨hpc, (List.cons.inj hw).1.symm⟩

/-- Settles O17: before execution the fetch says what was read, and a raised instruction was decoded from the byte it
records. -/
theorem faultRecordsTheFetchedOpcode : Obligations.FaultRecordsTheFetchedOpcode := by
  unfold Obligations.FaultRecordsTheFetchedOpcode
  intro s t hs h ht
  obtain ⟨hr, ⟨k, op, hf, rfl⟩ | ⟨i, hf, hi⟩⟩ := step_next h
  · exact recordsFetchedOpcode_of_raised hs.progLen_le hf
  · obtain hc | ⟨k, -, rfl⟩ := exec_next hi
    · exact absurd ht (hc.not_faulted hr)
    · obtain ⟨hpc, hbyte⟩ := byte_of_fetched_instr hs.progLen_le hf
      rw [State.faultOf, hbyte]
      exact recordsFetchedOpcode_some (fetch_eq_instr hf).1 hpc

/-! ## The count and the life cycle -/

/-- Settles O18: fault entry leaves the count, a completed instruction adds one and does not end FAULTED. -/
theorem completedInstructionsAreCounted : Obligations.CompletedInstructionsAreCounted := by
  unfold Obligations.CompletedInstructionsAreCounted
  intro s t h
  obtain ⟨hr, ⟨k, op, -, rfl⟩ | ⟨i, -, hc⟩⟩ := step_faults_or_completes h
  · exact ⟨fun hne => absurd rfl hne, fun _ => rfl⟩
  · exact ⟨fun _ => hc.steps_eq, fun ht => absurd ht (hc.not_faulted hr)⟩

/-- LOAD_PROGRAM is accepted in IDLE only; a load error enters FAULTED, anything else is loaded (R236). -/
theorem loadProgram_eq_some {src : Source} (h : loadProgram src s = some t) :
    s.status = .idle ∧ (t = loadError s ∨ ∃ bs, bs.length ≤ s.cfg.cProg ∧ t = loadBytes s bs) := by
  unfold loadProgram at h
  by_cases hi : s.status = .idle
  · rw [if_pos hi] at h
    refine ⟨hi, ?_⟩
    cases src with
    | unreadable => exact .inl (Option.some.inj h).symm
    | bytes bs =>
      simp only at h
      by_cases hl : s.cfg.cProg < bs.length
      · rw [if_pos hl] at h
        exact .inl (Option.some.inj h).symm
      · rw [if_neg hl] at h
        exact .inr ⟨bs, not_lt.1 hl, (Option.some.inj h).symm⟩
  · rw [if_neg hi] at h
    cases h

/-- START is accepted in LOADED only, and sets the status (R237). -/
theorem start_eq_some : start s = some t ↔ s.status = .loaded ∧ t = s.setStatus .running := by
  unfold start
  by_cases hl : s.status = .loaded
  · rw [if_pos hl, Option.some.injEq, eq_comm]
    exact (and_iff_right hl).symm
  · rw [if_neg hl]
    exact ⟨nofun, fun h => absurd h.1 hl⟩

/-- Settles O19: fault entry ends in FAULTED and a completed instruction in RUNNING or, by STOP, in STOPPED; each
transaction's cases name the status. -/
theorem lifeCycleIsAsDrawn : Obligations.LifeCycleIsAsDrawn := by
  unfold Obligations.LifeCycleIsAsDrawn
  refine ⟨fun s t h => ?_, fun s t a h => ?_⟩
  · obtain ⟨hr, ⟨k, op, -, rfl⟩ | ⟨i, hf, hc⟩⟩ := step_faults_or_completes h
    · exact ⟨hr, .inr (.inl rfl)⟩
    · obtain ht | ⟨ht, rfl⟩ := hc.running_or_stopped hr
      · exact ⟨hr, .inl ht⟩
      · exact ⟨hr, .inr (.inr ⟨ht, hf⟩)⟩
  · cases a with
    | reset =>
      obtain rfl := Option.some.inj h
      rfl
    | loadProgram src =>
      obtain ⟨hi, rfl | ⟨bs, -, rfl⟩⟩ := loadProgram_eq_some h
      · exact ⟨hi, .inr rfl⟩
      · exact ⟨hi, .inl rfl⟩
    | start =>
      obtain ⟨hl, rfl⟩ := start_eq_some.1 h
      exact ⟨hl, rfl⟩

/-- Settles O41: no instruction, fault entry or transaction lists the parameters among its updates. -/
theorem parametersNeverChange : Obligations.ParametersNeverChange := by
  unfold Obligations.ParametersNeverChange
  refine ⟨fun s t h => (step_sameProgram h).cfg, fun s t a h => ?_⟩
  cases a with
  | reset =>
    obtain rfl := Option.some.inj h
    rfl
  | loadProgram src => obtain ⟨-, rfl | ⟨bs, -, rfl⟩⟩ := loadProgram_eq_some h <;> rfl
  | start =>
    obtain ⟨-, rfl⟩ := start_eq_some.1 h
    rfl

/-- Settles O37: STOP always completes, and no step is enabled in STOPPED (R96). -/
theorem stopHaltsTheCore : Obligations.StopHaltsTheCore := by
  unfold Obligations.StopHaltsTheCore
  exact fun s => ⟨_, exec_of_completed .stop, rfl, noStepOutsideRunning.1 _ nofun⟩

/-! ## Output -/

/-- The host's text depends on the output alone. -/
theorem hostText_of_out_eq (h : t.out = s.out) : hostText t = hostText s := by rw [hostText, h, hostText]

/-- A word more of output is a line more of text. -/
theorem hostText_of_out_append {v : Word} (h : t.out = s.out ++ [v]) : hostText t = hostText s ++ hostLine v := by
  rw [hostText, h, List.flatMap_append, List.flatMap_singleton, hostText]

/-- A number's decimal text begins with `0` only when it is `0`. -/
theorem toDigits_eq_zero_of_head (n : Nat) (h : (Nat.toDigits 10 n).head? = some '0') : Nat.toDigits 10 n = ['0'] := by
  induction n using Nat.strongRecOn with
  | ind n ih =>
    by_cases hn : n < 10
    · rw [Nat.toDigits_of_lt_base hn] at h ⊢
      rw [Option.some.inj h]
    · have hsplit := Nat.toDigits_of_base_le (b := 10) (by decide) (not_lt.1 hn)
      rw [hsplit, List.head?_append_of_ne_nil _ Nat.toDigits_ne_nil] at h
      have hzero := ih (n / 10) (by omega) h
      have hvalue := Nat.ofDigitChars_ten_toDigits (n := n / 10)
      rw [hzero] at hvalue
      have : n / 10 = 0 := hvalue.symm
      omega

/-- Settles O38: only a completed PRINT emits, and the line is the library's decimal text of the magnitude. -/
theorem outputGrowsOnlyByPrint : Obligations.OutputGrowsOnlyByPrint := by
  unfold Obligations.OutputGrowsOnlyByPrint
  refine ⟨fun s t h => ?_, fun v => ⟨Nat.toDigits 10 (sint v).natAbs, ?_, ?_, ?_, ?_, ?_⟩⟩
  · obtain ⟨-, ⟨k, op, -, rfl⟩ | ⟨i, hf, hc⟩⟩ := step_faults_or_completes h
    · exact .inl ⟨rfl, rfl⟩
    · by_cases hi : i = .print
      · subst hi
        obtain ⟨v, hv, hout⟩ := hc.print_out
        exact .inr ⟨hf, v, hv, hout, hostText_of_out_append hout⟩
      · have hout := hc.out_eq hi
        exact .inl ⟨hout, hostText_of_out_eq hout⟩
  · unfold hostLine
    split_ifs <;> rfl
  · exact fun c hc => Nat.isDigit_of_mem_toDigits (by decide) le_rfl hc
  · exact Nat.ofDigitChars_ten_toDigits
  · exact Nat.toDigits_ne_nil
  · exact toDigits_eq_zero_of_head _

end Sys2Proof.Machine
end

section
/-! PROOF. The invariant (10_state.md section 6): RESET gives it, every step and transaction keeps it, and from it a RUNNING
core always steps and, with a budget, halts (60_exceptions.md section 1). -/

namespace Sys2Proof.Machine

variable {s t : State} {i : Instr}

/-! ## Parts of the invariant -/

theorem State.Inv.cfg_wf (h : s.Inv) : s.cfg.Wf :=
  have ⟨hcfg, _⟩ := h
  hcfg

theorem State.Inv.storeLoaded (h : s.Inv) : s.StoreLoaded :=
  have ⟨_, _, _, hstore, _⟩ := h
  hstore

theorem State.Inv.freshBeforeRun (h : s.Inv) : s.FreshBeforeRun :=
  have ⟨_, _, _, _, _, hfresh⟩ := h
  hfresh

/-- In IDLE every field has its reset value. -/
theorem State.Inv.eq_resetWith (h : s.Inv) (hi : s.status = .idle) : s = State.resetWith s.cfg := h.freshBeforeRun.1 hi

/-- Outside FAULTED the record rule asks for a cleared record. -/
theorem faultRecordMatches_of_clear (hs : s.status ≠ .faulted) (hf : s.fault = FaultRecord.clear) :
    s.FaultRecordMatches :=
  ⟨fun h => absurd h hs, fun _ => hf⟩

/-- From START on, the contents rule asks nothing. -/
theorem freshBeforeRun_of_started (hidle : s.status ≠ .idle) (hloaded : s.status ≠ .loaded) : s.FreshBeforeRun :=
  ⟨fun h => absurd h hidle, fun h => absurd h hloaded⟩

/-! ## RESET -/

theorem resetWith_inv {c : Config} (hc : c.Wf) : (State.resetWith c).Inv := by
  refine ⟨hc, ⟨List.length_replicate, List.length_replicate⟩, ⟨Nat.zero_le _, Nat.zero_le _, Nat.zero_le _⟩,
    ⟨Memory.reset_wf c, nofun⟩, faultRecordMatches_of_clear nofun rfl, fun _ => rfl, nofun⟩

/-- Settles O47: the reset contents have the sizes, and every pointer is 0. -/
theorem resetMeetsTheInvariant : Obligations.ResetMeetsTheInvariant := by
  unfold Obligations.ResetMeetsTheInvariant
  exact fun c hc => resetWith_inv hc

/-! ## The step -/

/-- Fault entry sets the record as the invariant asks and touches nothing else. -/
theorem enterFault_inv (hs : s.Inv) (k : FaultKind) (op : Option Byte) : (s.enterFault k op).Inv := by
  obtain ⟨hcfg, hsizes, hptrs, hstore, -, -⟩ := hs
  refine ⟨hcfg, hsizes, hptrs, hstore, ⟨fun _ => ⟨rfl, rfl, fun hop => ?_⟩, fun h => absurd rfl h⟩,
    freshBeforeRun_of_started nofun nofun⟩
  cases op with
  | none => rfl
  | some b => cases hop

/-- A completed instruction that ends inside the loaded bytes keeps the invariant of a RUNNING core. -/
theorem Completed.inv (h : Completed s i t) (hs : s.Inv) (hr : s.status = .running)
    (hend : s.pc + i.length ≤ s.progLen) : t.Inv := by
  have hp := h.sameProgram
  obtain ⟨hst, hx⟩ := h.lengths_eq
  have hstatus := h.running_or_stopped hr
  have hpc : t.pc ≤ s.cfg.cProg := by
    obtain hpc | hpc := h.pc_eq
    · exact hpc.trans_le (hend.trans hs.progLen_le)
    · exact hpc.le
  have hfault : t.fault = FaultRecord.clear := h.fault_eq.trans (hs.fault_clear (by simp [hr]))
  refine ⟨?_, ⟨?_, ?_⟩, ⟨?_, ?_, ?_⟩, ?_, faultRecordMatches_of_clear (h.not_faulted hr) hfault,
    freshBeforeRun_of_started ?_ ?_⟩
  · exact hp.cfg ▸ hs.cfg_wf
  · rw [hst, hp.cfg, hs.st_length]
  · rw [hx, hp.cfg, hs.x_length]
  · exact hp.cfg ▸ h.sp_le hs.sp_le
  · rw [hp.progLen, hp.cfg]
    exact hs.progLen_le
  · exact hp.cfg ▸ hpc
  · rw [State.StoreLoaded, hp.prog, hp.progLen]
    exact hs.storeLoaded
  · obtain ht | ⟨ht, -⟩ := hstatus <;> simp [ht]
  · obtain ht | ⟨ht, -⟩ := hstatus <;> simp [ht]

/-- Settles O48: fault entry keeps the invariant, and a fetched instruction ends inside the loaded bytes, so completing it
keeps the pc in range. -/
theorem stepKeepsTheInvariant : Obligations.StepKeepsTheInvariant := by
  unfold Obligations.StepKeepsTheInvariant
  intro s t hs h
  obtain ⟨hr, ⟨k, op, -, rfl⟩ | ⟨i, hf, hc⟩⟩ := step_faults_or_completes h
  · exact enterFault_inv hs k op
  · obtain ⟨-, -, hend⟩ := fetched_instr_stands_at_pc hs.progLen_le hf
    exact hc.inv hs hr hend

/-! ## The transactions -/

/-- A load error in IDLE: the record's FAULT_PC is the pc, which is 0. -/
theorem loadError_inv (hs : s.Inv) (hi : s.status = .idle) : (loadError s).Inv := by
  have hpc : 0 = s.pc := by rw [hs.eq_resetWith hi, State.resetWith_pc]
  obtain ⟨hcfg, hsizes, hptrs, hstore, -, -⟩ := hs
  exact ⟨hcfg, hsizes, hptrs, hstore, ⟨fun _ => ⟨rfl, hpc, fun _ => rfl⟩, fun h => absurd rfl h⟩,
    freshBeforeRun_of_started nofun nofun⟩

/-- Bytes written from address 0 into an empty store keep it canonical and end at their number. -/
theorem storeLoaded_writeBytes (bs : List Byte) :
    Memory.Wf (Memory.writeBytes [] 0 bs) ∧ ∀ c ∈ Memory.writeBytes [] 0 bs, c.1 < bs.length := by
  refine ⟨Memory.writeBytes_wf ⟨List.Pairwise.nil, nofun⟩ 0 bs, fun c hc => ?_⟩
  obtain hnil | ⟨-, hlt⟩ := Memory.mem_writeBytes hc
  · cases hnil
  · simpa using hlt

/-- A load of bytes that fit, in IDLE. -/
theorem loadBytes_inv (hs : s.Inv) (hi : s.status = .idle) {bs : List Byte} (hbs : bs.length ≤ s.cfg.cProg) :
    (loadBytes s bs).Inv := by
  have hreset := hs.eq_resetWith hi
  have hprog : s.prog = [] := by rw [hreset, State.resetWith_prog]
  have hfault : s.fault = FaultRecord.clear := hs.fault_clear (by simp [hi])
  have hstore := storeLoaded_writeBytes bs
  rw [← hprog] at hstore
  refine ⟨hs.cfg_wf, ⟨hs.st_length, hs.x_length⟩, ⟨hs.sp_le, hbs, hs.pc_le⟩, hstore,
    faultRecordMatches_of_clear nofun hfault, nofun, fun _ => ?_⟩
  rw [loadBytes, hreset]
  rfl

theorem setStatus_running_inv (hs : s.Inv) (hl : s.status = .loaded) : (s.setStatus .running).Inv := by
  have hfault : s.fault = FaultRecord.clear := hs.fault_clear (by simp [hl])
  exact ⟨hs.cfg_wf, ⟨hs.st_length, hs.x_length⟩, ⟨hs.sp_le, hs.progLen_le, hs.pc_le⟩, hs.storeLoaded,
    faultRecordMatches_of_clear nofun hfault, freshBeforeRun_of_started nofun nofun⟩

/-- Settles O49: in each state that accepts the transaction, its one case keeps the invariant. -/
theorem transactionKeepsTheInvariant : Obligations.TransactionKeepsTheInvariant := by
  unfold Obligations.TransactionKeepsTheInvariant
  intro s t a hs h
  cases a with
  | reset =>
    obtain rfl := Option.some.inj h
    exact resetWith_inv hs.cfg_wf
  | loadProgram src =>
    obtain ⟨hi, rfl | ⟨bs, hbs, rfl⟩⟩ := loadProgram_eq_some h
    · exact loadError_inv hs hi
    · exact loadBytes_inv hs hi hbs
  | start =>
    obtain ⟨hl, rfl⟩ := start_eq_some.1 h
    exact setStatus_running_inv hs hl

/-- Settles O50, by induction over the transitions from RESET. -/
theorem reachableStatesMeetTheInvariant : Obligations.ReachableStatesMeetTheInvariant := by
  unfold Obligations.ReachableStatesMeetTheInvariant
  intro c s hc h
  induction h with
  | reset => exact ⟨resetWith_inv hc, rfl⟩
  | step _ e ih => exact ⟨stepKeepsTheInvariant _ _ ih.1 e, (parametersNeverChange.1 _ _ e).trans ih.2⟩
  | transact a _ e ih => exact ⟨transactionKeepsTheInvariant _ _ a ih.1 e, (parametersNeverChange.2 _ _ a e).trans ih.2⟩

/-! ## Progress and the step budget -/

/-- Settles O52: the loaded bytes exist, so the fetch raises or answers an instruction, and every instruction completes or
raises. -/
theorem everyEnabledStepAnswers : Obligations.EveryEnabledStepAnswers := by
  unfold Obligations.EveryEnabledStepAnswers
  intro s hs hr
  obtain ⟨-, hf⟩ | ⟨-, e, hd, hf⟩ | ⟨-, i, rest, -, hf⟩ := fetch_cases hs.progLen_le
  · exact ⟨_, step_raised hr hf⟩
  · exact ⟨_, step_raised hr (hf.trans (rejected_of_decode hd))⟩
  · rw [step_instr hr hf]
    obtain ⟨t, hc⟩ | ⟨k, hk⟩ := exec_total hs i
    · exact ⟨t, exec_of_completed hc⟩
    · exact ⟨_, exec_of_raised hk⟩

/-- No instruction raises StepBudgetExceeded. -/
theorem Raised.ne_stepBudgetExceeded {k : FaultKind} (h : Raised s i k) : k ≠ .stepBudgetExceeded := by
  cases h with
  | _ => exact nofun

/-- A step on a used-up budget takes that fault. -/
theorem step_of_budgetUsedUp (hb : budgetUsedUp s = true) (h : step s = .next t) :
    t = s.enterFault .stepBudgetExceeded none := by
  obtain ⟨hr, -⟩ := step_next h
  rw [step_raised hr (fetch_budget hb)] at h
  exact (Host.Outcome.next.inj h).symm

/-- A step within the budget does not end FAULTED with StepBudgetExceeded. -/
theorem step_kind_of_budget_left (hb : budgetUsedUp s = false) (h : step s = .next t) (ht : t.status = .faulted) :
    t.fault.kind ≠ some .stepBudgetExceeded := by
  obtain ⟨hr, ⟨k, op, hf, rfl⟩ | ⟨i, -, hi⟩⟩ := step_next h
  · obtain ⟨hb', -⟩ | ⟨-, rfl, -⟩ := fetch_eq_raised hf
    · simp [hb] at hb'
    · exact nofun
  · obtain hc | ⟨k, hk, rfl⟩ := exec_next hi
    · exact absurd ht (hc.not_faulted hr)
    · exact fun he => hk.ne_stepBudgetExceeded (Option.some.inj he)

/-- A step adds at most one to the count. -/
theorem step_steps_le (h : step s = .next t) : t.steps ≤ s.steps + 1 := by
  obtain ⟨-, ⟨k, op, -, rfl⟩ | ⟨i, -, hc⟩⟩ := step_faults_or_completes h
  · exact Nat.le_succ _
  · exact hc.steps_eq.le

/-- Settles O51: at the budget the step takes that fault and leaves the count; below it, it adds at most one and takes no
such fault. -/
theorem budgetIsNeverExceeded : Obligations.BudgetIsNeverExceeded := by
  unfold Obligations.BudgetIsNeverExceeded
  intro s t b hbudget hle h
  obtain hlt | rfl := hle.lt_or_eq
  · have hb : budgetUsedUp s = false := by
      rw [Bool.eq_false_iff, Ne, budgetUsedUp_iff hbudget]
      exact hlt.not_ge
    exact ⟨(step_steps_le h).trans hlt, fun he => absurd he hlt.ne,
      fun ht hk => absurd hk (step_kind_of_budget_left hb h ht)⟩
  · obtain rfl := step_of_budgetUsedUp ((budgetUsedUp_iff hbudget).2 le_rfl) h
    exact ⟨le_rfl, fun _ => ⟨rfl, rfl⟩, fun _ _ => rfl⟩

/-- A run begins with its first step. -/
theorem core_run_succ {n : Nat} {r : Result} (h : step s = .next t) (hr : core.run n t = r) :
    core.run (n + 1) s = r := by
  have hstep : core.step s = .next t := h
  simp only [Host.Core.run, hstep]
  exact hr

/-- Settles O53, by induction over the budget that is left: a step halts, or completes an instruction and leaves one less;
with none left it takes the budget's fault. -/
theorem budgetedRunHalts : Obligations.BudgetedRunHalts := by
  unfold Obligations.BudgetedRunHalts
  intro s b hs hr hbudget
  obtain ⟨n, hn⟩ : ∃ n, b - s.steps = n := ⟨_, rfl⟩
  induction n generalizing s with
  | zero =>
    obtain ⟨t, ht⟩ := everyEnabledStepAnswers s hs hr
    obtain rfl := step_of_budgetUsedUp ((budgetUsedUp_iff hbudget).2 (Nat.sub_eq_zero_iff_le.1 hn)) ht
    exact ⟨1, _, Nat.le_add_left _ _, core_run_succ ht rfl, .inr rfl⟩
  | succ n ih =>
    obtain ⟨t, ht⟩ := everyEnabledStepAnswers s hs hr
    obtain ⟨-, hrunning | hfaulted | ⟨hstopped, -⟩⟩ := lifeCycleIsAsDrawn.1 s t ht
    · have hsteps := (completedInstructionsAreCounted s t ht).1 (by simp [hrunning])
      have hcfg := parametersNeverChange.1 s t ht
      obtain ⟨k, u, hk, hrun, hhalt⟩ := ih t (stepKeepsTheInvariant s t hs ht) hrunning (hcfg ▸ hbudget) (by omega)
      exact ⟨k + 1, u, by omega, core_run_succ ht hrun, hhalt⟩
    · exact ⟨1, t, Nat.le_add_left _ _, core_run_succ ht rfl, .inr hfaulted⟩
    · exact ⟨1, t, Nat.le_add_left _ _, core_run_succ ht rfl, .inl hstopped⟩

end Sys2Proof.Machine
end

section
/-! PROOF. What no program can observe (10_state.md R34, 20_memory.md R53): two states that differ only in dead cells and in
bytes past the program fetch alike, and each instruction does the same to both. -/

namespace Sys2Proof.Machine

variable {s t s' : State} {i : Instr} {k : FaultKind}

/-! ## The fetch -/

/-- A read of bytes depends on those bytes only. -/
theorem readBytes_congr {a n : Nat} (h : ∀ b, b < a + n → t.readByte b = s.readByte b) :
    t.readBytes a n = s.readBytes a n := by
  induction n generalizing a with
  | zero => rfl
  | succ n ih =>
    have htail : t.readBytes (a + 1) n = s.readBytes (a + 1) n := ih fun b hb => h b (by omega)
    simp only [State.readBytes, h a (by omega), htail]

theorem SameToPrograms.cfg (h : SameToPrograms s t) : t.cfg = s.cfg := by rw [h.rest]
theorem SameToPrograms.status (h : SameToPrograms s t) : t.status = s.status := by rw [h.rest]
theorem SameToPrograms.progLen (h : SameToPrograms s t) : t.progLen = s.progLen := by rw [h.rest]
theorem SameToPrograms.pc (h : SameToPrograms s t) : t.pc = s.pc := by rw [h.rest]
theorem SameToPrograms.sp (h : SameToPrograms s t) : t.sp = s.sp := by rw [h.rest]
theorem SameToPrograms.steps (h : SameToPrograms s t) : t.steps = s.steps := by rw [h.rest]

/-- A loaded byte reads alike. -/
theorem SameToPrograms.readByte (h : SameToPrograms s t) {a : Nat} (ha : a < s.progLen) :
    t.readByte a = s.readByte a := by
  simp only [State.readByte, h.cfg, h.text a ha]

/-- A fetch reads loaded bytes only. -/
theorem SameToPrograms.fetchBytes (h : SameToPrograms s t) : fetchBytes t = fetchBytes s := by
  simp only [Machine.fetchBytes, h.progLen, h.pc]
  by_cases hpc : s.pc < s.progLen
  · exact readBytes_congr fun b hb => h.readByte (by omega)
  · have hnone : s.progLen - s.pc = 0 := Nat.sub_eq_zero_of_le (not_lt.1 hpc)
    simp only [hnone, Nat.min_zero, State.readBytes]

theorem SameToPrograms.budgetUsedUp (h : SameToPrograms s t) : budgetUsedUp t = budgetUsedUp s := by
  rw [Machine.budgetUsedUp, h.cfg, h.steps, Machine.budgetUsedUp]

theorem SameToPrograms.fetch (h : SameToPrograms s t) : fetch t = fetch s := by
  simp only [Machine.fetch, h.budgetUsedUp, h.fetchBytes, h.cfg]

/-! ## Live cells -/

/-- A live cell holds the same word. -/
theorem SameToPrograms.live_getElem? (h : SameToPrograms s t) {j : Nat} (hj : j < s.sp) : t.st[j]? = s.st[j]? := by
  rw [← List.getElem?_take_of_lt hj, h.live, List.getElem?_take_of_lt hj]

/-- The top cell of a stack that is not empty, and the one below it, are live. -/
theorem SameToPrograms.operand (h : SameToPrograms s t) {d : Nat} (hd : 1 ≤ d) (hsp : d ≤ s.sp) {v : Word}
    (hv : s.st[s.sp - d]? = some v) : t.st[s.sp - d]? = some v := by
  rw [h.live_getElem? (by omega), hv]

/-- Lists that agree at every index below `n` have the same first `n` elements. -/
theorem take_eq_take_of_getElem? {l l' : List Word} {n : Nat} (h : ∀ j, j < n → l'[j]? = l[j]?) :
    l'.take n = l.take n := by
  refine List.ext_getElem? fun j => ?_
  by_cases hj : j < n
  · rw [List.getElem?_take_of_lt hj, List.getElem?_take_of_lt hj, h j hj]
  · rw [List.getElem?_take_eq_none (not_lt.1 hj), List.getElem?_take_eq_none (not_lt.1 hj)]

/-! ## Next states that go on differing only there -/

/-- Neither the program nor a cell is written, and no cell comes alive. -/
theorem SameToPrograms.of_kept (h : SameToPrograms s t) (hp : SameProgram s s') (hst : s'.st = s.st)
    (hsp : s'.sp ≤ s.sp) : SameToPrograms s' { s' with st := t.st, prog := t.prog } := by
  refine ⟨rfl, hst ▸ h.size, ?_, fun a ha => ?_⟩
  · exact hst ▸ take_eq_take_of_getElem? fun j hj => h.live_getElem? (hj.trans_le hsp)
  · exact hp.prog ▸ h.text a (hp.progLen ▸ ha)

/-- One cell is written, alike on both sides, and no other cell comes alive. -/
theorem SameToPrograms.of_written (h : SameToPrograms s t) (hp : SameProgram s s') {c : Nat} {v : Word}
    (hst : s'.st = s.st.set c v) (hsp : ∀ j, j < s'.sp → c ≠ j → j < s.sp) :
    SameToPrograms s' { s' with st := t.st.set c v, prog := t.prog } := by
  refine ⟨rfl, ?_, ?_, fun a ha => ?_⟩
  · simp only [hst, List.length_set, h.size]
  · refine take_eq_take_of_getElem? fun j hj => ?_
    rw [hst]
    by_cases hc : c = j
    · rw [List.getElem?_set, List.getElem?_set, if_pos hc, if_pos hc, h.size]
    · rw [List.getElem?_set_ne hc, List.getElem?_set_ne hc, h.live_getElem? (hsp j hj hc)]
  · exact hp.prog ▸ h.text a (hp.progLen ▸ ha)

/-! ## Instructions and the step -/

/-- A completed instruction completes on both sides: it reads live cells only, and what it writes it writes to both. -/
theorem Completed.sameToPrograms (hc : Completed s i s') (h : SameToPrograms s t) :
    ∃ t', Completed t i t' ∧ SameToPrograms s' t' := by
  have hp := hc.sameProgram
  have hkept := h.of_kept hp
  have hwritten {c : Nat} {v : Word} := h.of_written hp (c := c) (v := v)
  have htop {v : Word} := h.operand (d := 1) (v := v) le_rfl
  have hnext {v : Word} := h.operand (d := 2) (v := v) one_le_two
  have hsize := h.size
  have hpushed : ∀ j, j < s.sp + 1 → s.sp ≠ j → j < s.sp := by omega
  have hreplaced : ∀ j, j < s.sp - 1 → s.sp - 2 ≠ j → j < s.sp := by omega
  obtain ⟨cfg, status, prog, progLen, pc, st, sp, x, steps, fault, out⟩ := t
  cases h.rest
  cases hc with
  | nop => exact ⟨_, .nop, hkept rfl le_rfl⟩
  | stop => exact ⟨_, .stop, hkept rfl le_rfl⟩
  | jmp a ha => exact ⟨_, .jmp a ha, hkept rfl le_rfl⟩
  | pop hl => exact ⟨_, .pop hl, hkept rfl (Nat.sub_le ..)⟩
  | store r v hr hx hl hv => exact ⟨_, .store r v hr hx hl (htop hl hv), hkept rfl (Nat.sub_le ..)⟩
  | jzTaken a hl hv ha => exact ⟨_, .jzTaken a hl (htop hl hv) ha, hkept rfl (Nat.sub_le ..)⟩
  | jzNot a v hl hv h0 => exact ⟨_, .jzNot a v hl (htop hl hv) h0, hkept rfl (Nat.sub_le ..)⟩
  | jnzTaken a v hl hv h0 ha => exact ⟨_, .jnzTaken a v hl (htop hl hv) h0 ha, hkept rfl (Nat.sub_le ..)⟩
  | jnzNot a hl hv => exact ⟨_, .jnzNot a hl (htop hl hv), hkept rfl (Nat.sub_le ..)⟩
  | print v hl hv => exact ⟨_, .print v hl (htop hl hv), hkept rfl (Nat.sub_le ..)⟩
  | push v hroom hcell => exact ⟨_, .push v hroom (hsize ▸ hcell), hwritten rfl hpushed⟩
  | load r v hr hv hroom hcell =>
    exact ⟨_, .load r v hr hv hroom (hsize ▸ hcell), hwritten rfl hpushed⟩
  | add l r h2 hr hl => exact ⟨_, .add l r h2 (htop (by omega) hr) (hnext h2 hl), hwritten rfl hreplaced⟩
  | sub l r h2 hr hl => exact ⟨_, .sub l r h2 (htop (by omega) hr) (hnext h2 hl), hwritten rfl hreplaced⟩
  | mul l r h2 hr hl => exact ⟨_, .mul l r h2 (htop (by omega) hr) (hnext h2 hl), hwritten rfl hreplaced⟩
  | div l r h2 hr hl h0 =>
    exact ⟨_, .div l r h2 (htop (by omega) hr) (hnext h2 hl) h0, hwritten rfl hreplaced⟩

/-- A raised kind's condition is about `sp`, the capacities, the operand and the top word, which is live. -/
theorem Raised.of_agree (hr : Raised s i k) (hstack : t.cfg.cStack = s.cfg.cStack) (hregs : t.cfg.cRegs = s.cfg.cRegs)
    (hprog : t.cfg.cProg = s.cfg.cProg) (hsp : t.sp = s.sp) (hlive : ∀ j, j < s.sp → t.st[j]? = s.st[j]?) :
    Raised t i k := by
  have htop {v : Word} (hl : 1 ≤ s.sp) (hv : s.st[s.sp - 1]? = some v) : t.st[t.sp - 1]? = some v := by
    rw [hsp, hlive _ (by omega), hv]
  cases hr with
  | push n h => exact .push n (by omega)
  | pop h => exact .pop (by omega)
  | loadReg r h => exact .loadReg r (by omega)
  | loadFull r hr h => exact .loadFull r (by omega) (by omega)
  | storeReg r h => exact .storeReg r (by omega)
  | storeEmpty r hr h => exact .storeEmpty r (by omega) (by omega)
  | jmp a ha => exact .jmp a (by omega)
  | jzEmpty a h => exact .jzEmpty a (by omega)
  | jzTarget a h hv ha => exact .jzTarget a (by omega) (htop h hv) (by omega)
  | jnzEmpty a h => exact .jnzEmpty a (by omega)
  | jnzTarget a v h hv h0 ha => exact .jnzTarget a v (by omega) (htop h hv) h0 (by omega)
  | add h => exact .add (by omega)
  | sub h => exact .sub (by omega)
  | mul h => exact .mul (by omega)
  | divEmpty h => exact .divEmpty (by omega)
  | divZero h hv => exact .divZero (by omega) (htop (by omega) hv)
  | print h => exact .print (by omega)

/-- A raised kind is raised on both sides. -/
theorem Raised.sameToPrograms (hr : Raised s i k) (h : SameToPrograms s t) : Raised t i k := by
  have hcfg := h.cfg
  exact hr.of_agree (by rw [hcfg]) (by rw [hcfg]) (by rw [hcfg]) h.sp fun _ => h.live_getElem?

/-- Fault entry leaves every cell and every byte. -/
theorem SameToPrograms.enterFault (h : SameToPrograms s t) (k : FaultKind) (op : Option Byte) :
    SameToPrograms (s.enterFault k op) (t.enterFault k op) := by
  have hkept := h.of_kept (sameProgram_enterFault k op) rfl le_rfl
  obtain ⟨cfg, status, prog, progLen, pc, st, sp, x, steps, fault, out⟩ := t
  cases h.rest
  exact hkept

/-- Settles O54: the two states fetch the same bytes, and the instruction completes or raises alike on both. -/
theorem deadStateIsNeverObserved : Obligations.DeadStateIsNeverObserved := by
  unfold Obligations.DeadStateIsNeverObserved
  intro s t s' h hs
  obtain ⟨hr, ⟨k, op, hf, rfl⟩ | ⟨i, hf, hi⟩⟩ := step_next hs
  · exact ⟨_, step_raised (h.status.trans hr) (h.fetch.trans hf), h.enterFault k op⟩
  · rw [step_instr (h.status.trans hr) (h.fetch.trans hf)]
    obtain hc | ⟨k, hk, rfl⟩ := exec_next hi
    · obtain ⟨t', ht', hsame⟩ := hc.sameToPrograms h
      exact ⟨t', exec_of_completed ht', hsame⟩
    · refine ⟨_, exec_of_raised (hk.sameToPrograms h), ?_⟩
      rw [State.faultOf, State.faultOf, h.cfg]
      exact h.enterFault k _

end Sys2Proof.Machine
end

section
/-! PROOF. The opcode map (30_encoding.md section 2, R74): a map has no part in what an instruction does, but for the byte a
fault records. -/

namespace Sys2Proof.Machine

variable {s t : State} {i : Instr} {k : FaultKind}

/-- `s` with another opcode map, and nothing else changed. -/
def State.setMap (s : State) (m : OpcodeMap) : State := { s with cfg := { s.cfg with opcodeMap := m } }

/-- Without a recorded opcode byte, another map is all that differs. -/
theorem State.withMap_of_opcode_invalid (h : s.fault.opcodeValid = false) (m : OpcodeMap) (op : Byte) :
    s.withMap m op = s.setMap m := by
  have hop : (if s.fault.opcodeValid then op else s.fault.opcode) = s.fault.opcode := by simp [h]
  rw [State.withMap, hop]
  rfl

/-- A recorded opcode byte becomes the other map's. -/
theorem State.withMap_faultOf (m : OpcodeMap) :
    (s.faultOf i k).withMap m (m.byte i.mnemonic) = (s.setMap m).faultOf i k := rfl

/-- No completed case depends on the map. -/
theorem Completed.setMap (h : Completed s i t) (m : OpcodeMap) : Completed (s.setMap m) i (t.setMap m) := by
  cases h with
  | nop => exact .nop
  | push n hc hlen => exact .push n hc hlen
  | pop h => exact .pop h
  | load r v hr hv hc hl => exact .load r v hr hv hc hl
  | store r v hr hx h hv => exact .store r v hr hx h hv
  | jmp a ha => exact .jmp a ha
  | jzTaken a h hv ha => exact .jzTaken a h hv ha
  | jzNot a v h hv h0 => exact .jzNot a v h hv h0
  | jnzTaken a v h hv h0 ha => exact .jnzTaken a v h hv h0 ha
  | jnzNot a h hv => exact .jnzNot a h hv
  | add l r h hr hl => exact .add l r h hr hl
  | sub l r h hr hl => exact .sub l r h hr hl
  | mul l r h hr hl => exact .mul l r h hr hl
  | div l r h hr hl h0 => exact .div l r h hr hl h0
  | print v h hv => exact .print v h hv
  | stop => exact .stop

/-- No raised case depends on the map. -/
theorem Raised.setMap (h : Raised s i k) (m : OpcodeMap) : Raised (s.setMap m) i k :=
  h.of_agree rfl rfl rfl rfl fun _ _ => rfl

/-- Settles O8: the case that applies under one map applies under the other; a completed instruction leaves the record
clear, a raised one records its own byte. -/
theorem opcodeValuesDoNotChangeMeaning : Obligations.OpcodeValuesDoNotChangeMeaning := by
  unfold Obligations.OpcodeValuesDoNotChangeMeaning
  rintro s i m hs - hr
  change exec i (s.setMap m) = _
  obtain ⟨t, hc⟩ | ⟨k, hk⟩ := exec_total hs i
  · have hnone : t.fault.opcodeValid = false := by
      rw [hc.fault_eq, hs.fault_clear (by simp [hr])]
      rfl
    rw [exec_of_completed hc, exec_of_completed (hc.setMap m), mapNext, State.withMap_of_opcode_invalid hnone]
  · rw [exec_of_raised hk, exec_of_raised (hk.setMap m), mapNext, State.withMap_faultOf]

end Sys2Proof.Machine
end

section
/-! PROOF. The rules of LOAD, STORE, JZ, JNZ and the four arithmetic instructions (41_data_movement.md to 43_arithmetic.md),
and what two or three instructions do in a row. -/

namespace Sys2Proof.Machine

variable {s : State}

/-! ## Registers -/

/-- Settles O23: the checks of R104 and R100, in that order, decide between LOAD's three cases. -/
theorem loadPushesTheRegister : Obligations.LoadPushesTheRegister := by
  unfold Obligations.LoadPushesTheRegister
  refine fun s r hs => ⟨fun hr hroom => ?_, fun hr => Raised.raises (.loadReg r hr),
    fun hr hfull => Raised.raises (.loadFull r hr hfull.ge)⟩
  obtain ⟨v, hv⟩ := hs.reg hr
  exact ⟨v, hv, exec_of_completed (.load r v hr hv hroom (hs.st_length ▸ hroom))⟩

/-- Settles O24: the checks of R104 and R101, in that order, decide between STORE's three cases. -/
theorem storePopsIntoTheRegister : Obligations.StorePopsIntoTheRegister := by
  unfold Obligations.StorePopsIntoTheRegister
  refine fun s r hs => ⟨fun hr hlive => ?_, fun hr => Raised.raises (.storeReg r hr),
    fun hr hempty => Raised.raises (.storeEmpty r hr hempty)⟩
  obtain ⟨v, hv⟩ := hs.cell (Nat.sub_one_lt_of_le hlive le_rfl)
  exact ⟨v, hv, exec_of_completed (.store r v hr (hs.x_length ▸ hr) hlive hv)⟩

/-- Settles O25: each of the three completes; STORE takes from the cell PUSH filled, and LOAD from the register STORE
wrote. -/
theorem registerRoundTrip : Obligations.RegisterRoundTrip := by
  unfold Obligations.RegisterRoundTrip
  intro s v r hs hr hroom
  have hcell : s.sp < s.st.length := hs.st_length ▸ hroom
  have hreg : r < s.x.length := hs.x_length ▸ hr
  have hlen : s.sp < (s.st.set s.sp v).length := by rwa [List.length_set]
  have hpushed : (s.st.set s.sp v)[s.sp]? = some v := List.getElem?_set_self hcell
  have hstored : (s.x.set r v)[r]? = some v := List.getElem?_set_self hreg
  refine ⟨_, _, _, exec_of_completed (.push v hroom hcell),
    exec_of_completed (.store r v hr hreg (Nat.le_add_left ..) hpushed),
    exec_of_completed (.load r v hr hstored hroom hlen), hstored, List.getElem?_set_self hlen, rfl, fun j hj => ?_⟩
  exact List.getElem?_set_ne hj.symm

/-! ## Conditional jumps -/

/-- Settles O27: the top word decides whether the target is looked at at all (R141). -/
theorem jzJumpsOnZero : Obligations.JzJumpsOnZero := by
  unfold Obligations.JzJumpsOnZero
  refine fun s a v _ => ⟨fun hlive hv h0 ha => ?_, fun hlive hv h0 => ?_, fun hempty => ?_, fun hlive hv h0 ha => ?_⟩
  · exact exec_of_completed (.jzTaken a hlive (h0 ▸ hv) ha)
  · exact exec_of_completed (.jzNot a v hlive hv h0)
  · exact Raised.raises (.jzEmpty a hempty)
  · exact Raised.raises (.jzTarget a hlive (h0 ▸ hv) ha)

/-- Settles O28: as for JZ, with the words that take the jump exchanged (R142). -/
theorem jnzJumpsOnNonzero : Obligations.JnzJumpsOnNonzero := by
  unfold Obligations.JnzJumpsOnNonzero
  refine fun s a v _ => ⟨fun hlive hv h0 ha => ?_, fun hlive hv h0 => ?_, fun hempty => ?_, fun hlive hv h0 ha => ?_⟩
  · exact exec_of_completed (.jnzTaken a v hlive hv h0 ha)
  · exact exec_of_completed (.jnzNot a hlive (h0 ▸ hv))
  · exact Raised.raises (.jnzEmpty a hempty)
  · exact Raised.raises (.jnzTarget a v hlive hv h0 ha)

/-! ## Arithmetic -/

/-- Two live elements are two words. -/
theorem State.Inv.two_operands (hs : s.Inv) (h : 2 ≤ s.sp) :
    ∃ lhs rhs, s.st[s.sp - 2]? = some lhs ∧ s.st[s.sp - 1]? = some rhs := by
  obtain ⟨lhs, hl⟩ := hs.cell (j := s.sp - 2) (by omega)
  obtain ⟨rhs, hr⟩ := hs.cell (j := s.sp - 1) (by omega)
  exact ⟨lhs, rhs, hl, hr⟩

/-- Settles O30: the check of R101 decides between ADD's two cases. -/
theorem addReplacesTwoWordsByTheirSum : Obligations.AddReplacesTwoWordsByTheirSum := by
  unfold Obligations.AddReplacesTwoWordsByTheirSum
  refine fun s hs => ⟨fun h => ?_, fun h => Raised.raises (.add h)⟩
  obtain ⟨lhs, rhs, hl, hr⟩ := hs.two_operands h
  exact ⟨lhs, rhs, hl, hr, exec_of_completed (.add lhs rhs h hr hl)⟩

/-- Settles O31: the check of R101 decides between SUB's two cases. -/
theorem subReplacesTwoWordsByTheirDifference : Obligations.SubReplacesTwoWordsByTheirDifference := by
  unfold Obligations.SubReplacesTwoWordsByTheirDifference
  refine fun s hs => ⟨fun h => ?_, fun h => Raised.raises (.sub h)⟩
  obtain ⟨lhs, rhs, hl, hr⟩ := hs.two_operands h
  exact ⟨lhs, rhs, hl, hr, exec_of_completed (.sub lhs rhs h hr hl)⟩

/-- The word of a product is the product of words, whichever way the operands are read. -/
theorem word_sint_mul (lhs rhs : Word) : word (sint lhs * sint rhs) = lhs * rhs := by
  simp only [word, sint, BitVec.ofInt_mul, BitVec.ofInt_toInt]

theorem word_uint_mul (lhs rhs : Word) : word ((uint lhs : Int) * (uint rhs : Int)) = lhs * rhs := by
  simp only [word, uint, BitVec.ofInt_mul, BitVec.ofInt_natCast, BitVec.ofNat_toNat, BitVec.setWidth_eq]

/-- The word of a difference is the difference of words. -/
theorem word_sint_sub (lhs rhs : Word) : word (sint lhs - sint rhs) = lhs - rhs := by
  simp only [word, sint, Int.sub_eq_add_neg, BitVec.ofInt_add, BitVec.ofInt_neg, BitVec.ofInt_toInt,
    BitVec.sub_eq_add_neg]

/-- Settles O32: the check of R101 decides between MUL's two cases, and both readings give the product of the words. -/
theorem mulReplacesTwoWordsByTheirProduct : Obligations.MulReplacesTwoWordsByTheirProduct := by
  unfold Obligations.MulReplacesTwoWordsByTheirProduct
  refine fun s hs => ⟨fun h => ?_, fun h => Raised.raises (.mul h)⟩
  obtain ⟨lhs, rhs, hl, hr⟩ := hs.two_operands h
  have hreadings := (word_sint_mul lhs rhs).trans (word_uint_mul lhs rhs).symm
  exact ⟨lhs, rhs, hl, hr, hreadings, exec_of_completed (.mul lhs rhs h hr hl)⟩

/-- Settles O33: the check of R101 and then the divisor decide between DIV's three cases. -/
theorem divReplacesTwoWordsByTheQuotient : Obligations.DivReplacesTwoWordsByTheQuotient := by
  unfold Obligations.DivReplacesTwoWordsByTheQuotient
  exact fun s lhs rhs _ => ⟨fun h hl hr h0 => exec_of_completed (.div lhs rhs h hr hl h0),
    fun h hr => Raised.raises (.divZero h hr), fun h => Raised.raises (.divEmpty h)⟩

/-- Settles O35: the second PUSH fills the cell above the first one's, so the first word is the left operand. -/
theorem earlierOperandIsOnTheLeft : Obligations.EarlierOperandIsOnTheLeft := by
  unfold Obligations.EarlierOperandIsOnTheLeft
  intro s a b hs hroom
  have hlen := hs.st_length
  have hfirst : s.sp + 1 < (s.st.set s.sp a).length := by
    rw [List.length_set]
    omega
  have hsecond : s.sp < ((s.st.set s.sp a).set (s.sp + 1) b).length := by
    rw [List.length_set, List.length_set]
    omega
  have hrhs : ((s.st.set s.sp a).set (s.sp + 1) b)[s.sp + 1]? = some b := List.getElem?_set_self hfirst
  have hlhs : ((s.st.set s.sp a).set (s.sp + 1) b)[s.sp]? = some a := by
    rw [List.getElem?_set_ne (Nat.succ_ne_self _), List.getElem?_set_self (by omega)]
  refine ⟨_, _, exec_of_completed (.push a (by omega) (by omega)),
    exec_of_completed (.push b (show s.sp + 1 < s.cfg.cStack by omega) hfirst), ?_, fun hb => ?_⟩
  · refine ⟨_, exec_of_completed (.sub a b (Nat.le_add_left ..) hrhs hlhs), rfl, ?_⟩
    rw [← word_sint_sub]
    exact List.getElem?_set_self hsecond
  · exact ⟨_, exec_of_completed (.div a b (Nat.le_add_left ..) hrhs hlhs hb), rfl, List.getElem?_set_self hsecond⟩

/-! ## Truncating division -/

/-- The magnitude of the quotient (R10). -/
theorem truncDiv_natAbs (a b : Int) : (truncDiv a b).natAbs = a.natAbs / b.natAbs := by
  unfold truncDiv
  split_ifs
  · exact Int.natAbs_natCast _
  · rw [Int.natAbs_neg, Int.natAbs_natCast]

/-- The sign of the quotient (R10): a quotient of magnitude 0 has none. -/
theorem truncDiv_neg_iff {a b : Int} (hb : b ≠ 0) :
    truncDiv a b < 0 ↔ ((a < 0 ∧ 0 < b) ∨ (0 < a ∧ b < 0)) ∧ b.natAbs ≤ a.natAbs := by
  have hpos : 0 < a.natAbs / b.natAbs ↔ b.natAbs ≤ a.natAbs := by
    rw [Nat.div_pos_iff]
    omega
  unfold truncDiv
  generalize a.natAbs / b.natAbs = q at hpos ⊢
  split_ifs with hsign
  · omega
  · omega

/-- The bounds of a signed reading (R9). -/
theorem sint_bounds (v : Word) : -2147483648 ≤ sint v ∧ sint v < 2147483648 :=
  ⟨BitVec.le_toInt v, BitVec.toInt_lt⟩

theorem sint_eq_iff (v w : Word) : sint v = sint w ↔ v = w := BitVec.toInt_inj

/-- A quotient of words fits a word, but for the most negative word divided by -1. -/
theorem truncDiv_bounds {lhs rhs : Word} (h0 : rhs ≠ 0) (hwrap : ¬(lhs = 0x80000000 ∧ rhs = 0xFFFFFFFF)) :
    -2147483648 ≤ truncDiv (sint lhs) (sint rhs) ∧ truncDiv (sint lhs) (sint rhs) < 2147483648 := by
  have hl := sint_bounds lhs
  have hb : sint rhs ≠ 0 := fun h => h0 ((sint_eq_iff rhs 0).1 h)
  have hne : ¬(sint lhs = -2147483648 ∧ sint rhs = -1) := fun ⟨h1, h2⟩ =>
    hwrap ⟨(sint_eq_iff lhs 0x80000000).1 h1, (sint_eq_iff rhs 0xFFFFFFFF).1 h2⟩
  have hmag := truncDiv_natAbs (sint lhs) (sint rhs)
  have hneg := truncDiv_neg_iff (a := sint lhs) hb
  obtain hunit | hlarge : (sint rhs).natAbs = 1 ∨ 2 ≤ (sint rhs).natAbs := by omega
  · rw [hunit, Nat.div_one] at hmag
    omega
  · have hhalf := Nat.div_le_div_left hlarge two_pos (a := (sint lhs).natAbs)
    omega

/-- Settles O34: the quotient has the magnitude and the sign R10 gives it, and a word holds it unless it is 2^31. -/
theorem quotientIsRoundedTowardZero : Obligations.QuotientIsRoundedTowardZero := by
  unfold Obligations.QuotientIsRoundedTowardZero
  refine ⟨fun a b hb => ⟨truncDiv_natAbs a b, truncDiv_neg_iff hb⟩, fun lhs rhs h0 => ?_⟩
  by_cases hwrap : lhs = 0x80000000 ∧ rhs = 0xFFFFFFFF
  · rw [if_pos hwrap]
    obtain ⟨rfl, rfl⟩ := hwrap
    decide
  · rw [if_neg hwrap]
    obtain ⟨hlo, hhi⟩ := truncDiv_bounds h0 hwrap
    exact BitVec.toInt_ofInt_eq_self (by decide) hlo hhi

end Sys2Proof.Machine
end

section
/-! PROOF. The assembler (30_encoding.md section 5, R80): what it emits is well formed, and a label is an address. -/

namespace Sys2Proof.Machine

variable {labels : List (List Char × Nat)} {i : Instr} {its pre post : List AsmItem}

/-! ## Instructions -/

/-- An operand that is not refused fits the field of its mnemonic. -/
theorem assembleNumber_eq_some {k : Mnemonic} {n : Int} (h : assembleNumber k n = some i) :
    ∃ v, v < 256 ^ k.width ∧ i = k.withOperand v := by
  unfold assembleNumber at h
  unfold Mnemonic.width
  cases hf : k.format with
  | n => simp [hf] at h
  | r8 =>
    simp only [hf, Option.ite_none_right_eq_some, Option.some.injEq] at h
    obtain ⟨hn, rfl⟩ := h
    exact ⟨n.toNat, by simp only [Format.width]; omega, rfl⟩
  | t16 =>
    simp only [hf, Option.ite_none_right_eq_some, Option.some.injEq] at h
    obtain ⟨hn, rfl⟩ := h
    exact ⟨n.toNat, by simp only [Format.width]; omega, rfl⟩
  | i32 =>
    simp only [hf, Option.ite_none_right_eq_some, Option.some.injEq] at h
    obtain ⟨-, rfl⟩ := h
    exact ⟨(BitVec.ofInt 32 n).toNat, (BitVec.ofInt 32 n).isLt, rfl⟩

/-- A written instruction assembles to its own mnemonic with an operand that fits. -/
theorem assembleInstr_eq_some {a : AsmInstr} (h : assembleInstr labels a = some i) :
    ∃ v, v < 256 ^ a.mnemonic.width ∧ i = a.mnemonic.withOperand v := by
  unfold assembleInstr at h
  cases harg : a.arg with
  | absent =>
    simp only [harg, Option.ite_none_right_eq_some, Option.some.injEq] at h
    exact ⟨0, Nat.pow_pos (by decide), h.2.symm⟩
  | number n =>
    simp only [harg] at h
    exact assembleNumber_eq_some h
  | label l =>
    simp only [harg, Option.ite_none_right_eq_some] at h
    obtain ⟨-, h⟩ := h
    cases hl : labels.lookup l with
    | none => simp [hl] at h
    | some addr =>
      simp only [hl] at h
      exact assembleNumber_eq_some h

/-! ## Items -/

/-- The instructions one item emits: none, or its own. -/
def assembleItem (labels : List (List Char × Nat)) (it : AsmItem) : Option (List Instr) :=
  match it.instr with
  | none => some []
  | some a => (assembleInstr labels a).map (fun i => [i])

/-- What an item emits is well formed and has the bytes the label table counts for it, under every opcode map. -/
theorem assembleItem_spec {it : AsmItem} {is : List Instr} (h : assembleItem labels it = some is) (m : OpcodeMap) :
    (∀ i ∈ is, i.wf = true) ∧ (encodeProgram m is).length = it.size := by
  unfold assembleItem at h
  unfold AsmItem.size
  cases hi : it.instr with
  | none =>
    simp only [hi, Option.some.injEq] at h
    subst h
    exact ⟨nofun, rfl⟩
  | some a =>
    simp only [hi, Option.map_eq_some_iff] at h
    obtain ⟨i, ha, rfl⟩ := h
    obtain ⟨v, hv, rfl⟩ := assembleInstr_eq_some ha
    refine ⟨fun i hi => ?_, ?_⟩
    · rw [List.mem_singleton.1 hi]
      exact Mnemonic.withOperand_wf hv
    · simp only [encodeProgram, List.flatMap_singleton, Laws.EncodedLength.of_leBytes _ m, Instr.length,
        Mnemonic.withOperand_mnemonic]

/-- The items of a program assemble one after another. -/
theorem assembleItems_cons_eq_some {it : AsmItem} {is : List Instr} : assembleItems labels (it :: its) = some is ↔
    ∃ first rest, assembleItem labels it = some first ∧ assembleItems labels its = some rest ∧ is = first ++ rest := by
  rw [assembleItems]
  unfold assembleItem
  cases hi : it.instr with
  | none => simp [eq_comm]
  | some a =>
    cases ha : assembleInstr labels a with
    | none => simp [ha]
    | some i => cases assembleItems labels its <;> simp [ha, eq_comm (a := is)]

/-- What a list of items emits is well formed and has the bytes of its items. -/
theorem assembleItems_spec {is : List Instr} (h : assembleItems labels its = some is) (m : OpcodeMap) :
    (∀ i ∈ is, i.wf = true) ∧ (encodeProgram m is).length = (its.map AsmItem.size).sum := by
  induction its generalizing is with
  | nil =>
    obtain rfl := Option.some.inj h
    exact ⟨nofun, rfl⟩
  | cons it its ih =>
    obtain ⟨first, rest, hfirst, hrest, rfl⟩ := assembleItems_cons_eq_some.1 h
    obtain ⟨hwf, hlen⟩ := assembleItem_spec hfirst m
    obtain ⟨hwf', hlen'⟩ := ih hrest
    refine ⟨fun i hi => (List.mem_append.1 hi).elim (hwf i) (hwf' i), ?_⟩
    rw [encodeProgram] at hlen hlen' ⊢
    rw [List.flatMap_append, List.length_append, hlen, hlen', List.map_cons, List.sum_cons]

/-- The first items emit the first instructions of the program. -/
theorem assembleItems_append_eq_some {is : List Instr} (h : assembleItems labels (pre ++ post) = some is) :
    ∃ before after, is = before ++ after ∧ assembleItems labels pre = some before := by
  induction pre generalizing is with
  | nil => exact ⟨[], is, rfl, rfl⟩
  | cons it pre ih =>
    obtain ⟨first, rest, hfirst, hrest, rfl⟩ := assembleItems_cons_eq_some.1 h
    obtain ⟨before, after, rfl, hbefore⟩ := ih hrest
    exact ⟨first ++ before, after, (List.append_assoc ..).symm,
      assembleItems_cons_eq_some.2 ⟨first, before, hfirst, hbefore, rfl⟩⟩

/-! ## Programs -/

/-- A program assembles when no label is defined twice and its items do. -/
theorem assemble_eq_some {is : List Instr} : assemble its = some is ↔
    ((labelTable 0 its).map Prod.fst).Nodup ∧ assembleItems (labelTable 0 its) its = some is := by
  simp only [assemble, Option.ite_none_right_eq_some]

/-- Settles O9: each item's operand was checked against its field. -/
theorem assembledInstructionsAreWellFormed : Obligations.AssembledInstructionsAreWellFormed := by
  unfold Obligations.AssembledInstructionsAreWellFormed
  intro items is h
  obtain ⟨-, hitems⟩ := assemble_eq_some.1 h
  exact (assembleItems_spec hitems OpcodeMap.default).1

/-- The items before a labelled one move its address by their bytes. -/
theorem labelTable_append_labelled {it : AsmItem} {l : List Char} (hl : it.label = some l) (a : Nat) :
    labelTable a (pre ++ it :: post) =
      labelTable a pre ++ (l, a + (pre.map AsmItem.size).sum) ::
        labelTable (a + (pre.map AsmItem.size).sum + it.size) post := by
  induction pre generalizing a with
  | nil => simp [labelTable, hl]
  | cons p pre ih => cases hp : p.label <;> simp [labelTable, hp, ih, Nat.add_assoc]

/-- An entry of a table without double labels is the one found. -/
theorem lookup_of_nodup {front back : List (List Char × Nat)} {l : List Char} {a : Nat}
    (h : ((front ++ (l, a) :: back).map Prod.fst).Nodup) : (front ++ (l, a) :: back).lookup l = some a := by
  rw [List.map_append, List.nodup_append] at h
  obtain ⟨-, -, hdisjoint⟩ := h
  refine List.lookup_eq_some_iff.2 ⟨front, back, rfl, fun p hp => bne_iff_ne.2 ?_⟩
  exact (hdisjoint p.1 (List.mem_map_of_mem hp) l (by simp)).symm

/-- Settles O10: the table gives the label the bytes of the items before it, and those are the bytes they emit. -/
theorem labelIsTheAddressOfTheNextInstruction : Obligations.LabelIsTheAddressOfTheNextInstruction := by
  unfold Obligations.LabelIsTheAddressOfTheNextInstruction
  intro pre post it l is m hl h
  obtain ⟨hnodup, hitems⟩ := assemble_eq_some.1 h
  obtain ⟨before, after, his, hbefore⟩ := assembleItems_append_eq_some hitems
  refine ⟨before, after, his, hbefore, ?_⟩
  rw [(assembleItems_spec hbefore m).2]
  rw [labelTable_append_labelled hl, Nat.zero_add] at hnodup ⊢
  exact lookup_of_nodup hnodup

end Sys2Proof.Machine
end

section
/-! PROOF. The host's side (70_reset_and_hazards.md, 10_state.md section 5): RESET, LOAD_PROGRAM, START, the boot sequence
and the status reads. -/

namespace Sys2Proof.Machine

variable {s : State} {bs : List Byte}

/-! ## The transactions -/

/-- Settles O55: RESET gives the reset state in every state, START asks for LOADED. -/
theorem resetAndStartTransactions : Obligations.ResetAndStartTransactions := by
  unfold Obligations.ResetAndStartTransactions
  refine ⟨fun s => ⟨_, transact_reset s, rfl, rfl, fun a ha => ?_, rfl, rfl, fun i hi => ?_, rfl, fun i hi => ?_, rfl,
    rfl, rfl⟩, fun s hs => start_eq_some.2 ⟨hs, rfl⟩, fun s hs => start_eq_none hs⟩
  · exact State.readByte_ok ha
  · exact List.getElem?_replicate_of_lt hi
  · exact List.getElem?_replicate_of_lt hi

/-- LOAD_PROGRAM of bytes that fit (R236). -/
theorem loadProgram_bytes (hi : s.status = .idle) (hbs : bs.length ≤ s.cfg.cProg) :
    loadProgram (.bytes bs) s = some (loadBytes s bs) := by
  rw [loadProgram, if_pos hi]
  exact if_neg hbs.not_gt

/-- LOAD_PROGRAM of bytes that do not fit (R236, conflict C5). -/
theorem loadProgram_too_long (hi : s.status = .idle) (hbs : s.cfg.cProg < bs.length) :
    loadProgram (.bytes bs) s = some (loadError s) := by
  rw [loadProgram, if_pos hi]
  exact if_pos hbs

/-- LOAD_PROGRAM of a source that cannot be read (R236). -/
theorem loadProgram_unreadable (hi : s.status = .idle) : loadProgram .unreadable s = some (loadError s) :=
  if_pos hi

/-- A byte of the program stands at its number. -/
theorem read_writeBytes_nil {k : Nat} (h : k < bs.length) : Memory.read (Memory.writeBytes [] 0 bs) k = bs[k] := by
  rw [Memory.read_writeBytes ⟨List.Pairwise.nil, nofun⟩, if_pos ⟨Nat.zero_le k, by omega⟩, Nat.sub_zero,
    List.getD_eq_getElem]

/-- Every byte after the program reads as the store's reset content. -/
theorem read_writeBytes_nil_past {k : Nat} (h : bs.length ≤ k) :
    Memory.read (Memory.writeBytes [] 0 bs) k = 0x00 := by
  rw [Memory.read_writeBytes ⟨List.Pairwise.nil, nofun⟩, if_neg (by omega)]
  rfl

/-- Settles O56: the invariant makes the store empty in IDLE, so that every byte after the program reads 0. -/
theorem loadProgramTransaction : Obligations.LoadProgramTransaction := by
  unfold Obligations.LoadProgramTransaction
  refine ⟨fun s bs hs hi hbs => ?_, ?_, fun s src hs => loadProgram_eq_none src hs⟩
  · have hprog : s.prog = [] := by rw [hs.eq_resetWith hi, State.resetWith_prog]
    have hload : transact (.loadProgram (.bytes bs)) s = some (loadBytes s bs) := loadProgram_bytes hi hbs
    rw [loadBytes, hprog] at hload
    exact ⟨_, hload, (storeLoaded_writeBytes bs).1, fun k hk => read_writeBytes_nil hk,
      fun k hk => read_writeBytes_nil_past hk⟩
  · rintro s src hi (rfl | ⟨bs, rfl, hbs⟩)
    · exact loadProgram_unreadable hi
    · exact loadProgram_too_long hi hbs

/-- The state the boot sequence ends in when the program fits (R239). -/
def State.booted (c : Config) (bs : List Byte) : State := (loadBytes (State.resetWith c) bs).setStatus .running

theorem boot_of_fits {c : Config} (hbs : bs.length ≤ c.cProg) : boot c bs = some (State.booted c bs) := by
  rw [boot, loadProgram_bytes rfl hbs]
  rfl

theorem boot_of_too_long {c : Config} (hbs : c.cProg < bs.length) : boot c bs = none := by
  rw [boot, loadProgram_too_long rfl hbs]
  rfl

/-- The boot sequence is two transactions after RESET. -/
theorem reachable_booted {c : Config} (hbs : bs.length ≤ c.cProg) : Reachable c (State.booted c bs) := by
  have hload : transact (.loadProgram (.bytes bs)) (State.resetWith c) = some (loadBytes (State.resetWith c) bs) :=
    loadProgram_bytes rfl hbs
  exact .transact .start (.transact _ .reset hload) (start_eq_some.2 ⟨rfl, rfl⟩)

/-- The loaded bytes stand in the store from address 0. -/
theorem readBytes_booted {c : Config} (hbs : bs.length ≤ c.cProg) :
    (State.booted c bs).readBytes 0 bs.length = .ok bs := by
  have hstore : bs = (State.booted c bs).bytesAt 0 bs.length := State.eq_bytesAt fun k hk => by
    rw [Nat.zero_add, List.getElem?_eq_getElem hk]
    exact congrArg some (read_writeBytes_nil hk).symm
  have hread := State.readBytes_eq_bytesAt (s := State.booted c bs) (a := 0) (n := bs.length)
    (by rw [Nat.zero_add]; exact hbs)
  rwa [← hstore] at hread

/-- Settles O57: bytes that fit are loaded and started; any others give FAULTED, where START has no transition. -/
theorem bootReachesTheFirstFetch : Obligations.BootReachesTheFirstFetch := by
  unfold Obligations.BootReachesTheFirstFetch
  refine fun c bs _ => ⟨fun hbs => ?_, boot_of_too_long⟩
  exact ⟨_, boot_of_fits hbs, reachable_booted hbs, rfl, rfl, rfl, rfl, rfl, readBytes_booted hbs,
    fun i hi => List.getElem?_replicate_of_lt hi⟩

/-! ## The status reads -/

/-- A kind's code has four bits (R201). -/
theorem FaultRecord.kindCode_lt (f : FaultRecord) : f.kindCode < 16 := by
  unfold FaultRecord.kindCode
  cases f.kind with
  | none => decide
  | some k => cases k <;> decide

/-- The three fields of the FAULT word, each in its own bits (R35). -/
theorem FaultRecord.faultWord_fields (f : FaultRecord) :
    f.faultWord % 16 = f.kindCode ∧ f.faultWord / 16 % 2 = f.opcodeValid.toNat ∧
      f.faultWord / 32 = f.opcode.toNat := by
  have hkind := f.kindCode_lt
  have hvalid := f.opcodeValid.toNat_lt
  unfold FaultRecord.faultWord
  omega

/-- Settles O58: each read is a field, and the FAULT word keeps its three fields in bits of their own. -/
theorem statusReadsGiveTheirFields : Obligations.StatusReadsGiveTheirFields := by
  unfold Obligations.StatusReadsGiveTheirFields
  intro s
  obtain ⟨hkind, hvalid, hopcode⟩ := s.fault.faultWord_fields
  have hcode (k : Option FaultKind) (h : s.fault.kind = k) : s.fault.faultWord % 16 = (k.map FaultKind.code).getD 0 := by
    rw [hkind, FaultRecord.kindCode, h]
    cases k <;> rfl
  refine ⟨?_, ⟨_, rfl, hvalid, hopcode, hcode _, hcode _, hcode _, hcode _, hcode _, hcode _, hcode _, hcode _, hcode _⟩,
    rfl, rfl, rfl, rfl, ⟨_, rfl, Nat.mod_lt _ (by decide), Nat.mod_mod ..⟩, fun n hn => ?_⟩
  · have hstatus (v : Status) (h : s.status = v) : statusRead s 0 = some v.code := congrArg (fun v => some (Status.code v)) h
    exact ⟨hstatus _, hstatus _, hstatus _, hstatus _, hstatus _⟩
  · obtain ⟨d, rfl⟩ := Nat.exists_eq_add_of_le hn
    rw [Nat.add_comm]
    rfl

end Sys2Proof.Machine
end
